-- ==== Sys2Proof/Word.lean ====
section
/-! DEFINITION. The word and the byte of the register window (spec 00_scope.md R9, R11). -/

namespace Sys2Proof

/-- A register word: REG_BITS = 32 (R9), an unsigned number below 2^32 (R11). -/
abbrev Word := BitVec 32

/-- A byte, the addressable unit of the host bus (R51), and the unit of keys, messages and tags. -/
abbrev Byte := BitVec 8

end Sys2Proof
end

