-- ==== Sys2Proof/Bus.lean ====
section
/-! DEFINITION. What reaches the engine from outside: bus accesses, and the hardware reset. -/

namespace Sys2Proof

/-- The five commands a CMD word can name (30_encoding.md R72). -/
inductive Command where
  | clamp
  | init
  | absorb
  | final
  | clear
  deriving DecidableEq, Repr

/-- One access on the host bus. `off` is the bus address of its first byte less BASE (20_memory.md R51, log 1), so it is negative
below the window; `width` counts its bytes. The data of a write matters only for the 32-bit accesses R54 admits: the model gives
the others no effect on the engine. -/
inductive BusAccess where
  | read (off : Int) (width : Nat)
  | write (off : Int) (width : Nat) (data : Word)
  deriving DecidableEq, Repr

/-- One thing the outside world does to the engine: an access (R50, R60), or the hardware reset, which "happens between two host
accesses" (70_reset_and_hazards.md R252). -/
inductive Input where
  | access (a : BusAccess)
  | reset
  deriving DecidableEq, Repr

end Sys2Proof
end

