-- ==== Sys2Proof/Config.lean ====
section
/-! DEFINITION. What the platform fixes and the spec leaves open: the window's base address (spec 00_scope.md R9). -/

namespace Sys2Proof

/-- The platform's choice of BASE, in units of the window's 256 bytes. It has no value here: "BASE: OPEN" (R9, R58; log 1). -/
opaque Config.baseBlock : Nat

/-- BASE, "a multiple of 256" (R9): the bus address of the window's first byte. -/
def Config.base : Nat := 256 * Config.baseBlock

end Sys2Proof
end

