-- ==== Sys2Proof/Syntax.lean ====
section
/-! DEFINITION. The rows of spec/opcode_table.json: the five commands and the two bus transactions. -/

namespace Sys2Proof

/-- One constructor per row of the opcode table. A command has no operand field (30_encoding.md R73). The field `o` of a
transaction is the window offset's bits [7:2]; its bits [1:0] are 0 in every row (encoding `oooooo00`). -/
inductive Instr where
  /-- CLAMP: clamp r in place (R120). -/
  | clamp
  /-- INIT: check the key length, clamp, latch r and s, zero the accumulator (R123). -/
  | init
  /-- ABSORB: fold one chunk into the accumulator (R140). -/
  | absorb
  /-- FINAL: apply the policy's pad block and write the tag (R160). -/
  | final
  /-- CLEAR: zero every register but ID and CTRL (R180). -/
  | clear
  /-- WR: write the word `v` at offset `4·o` (R101). -/
  | wr (o : BitVec 6) (v : Word)
  /-- RD: read the word at offset `4·o` (R102). -/
  | rd (o : BitVec 6)
  deriving DecidableEq, Repr

end Sys2Proof
end

