-- ==== Sys2Proof/WellFormed.lean ====
section
/-! DEFINITION. Which terms of Instr are the one name of what the bus delivers. -/

namespace Sys2Proof

/-- The word offset of CMD (offset 0x0C, 10_state.md R22). -/
def cmdOffset : BitVec 6 := 3

/-- The command words of the opcode map (30_encoding.md R72). -/
def commandWords : List Word := [0x00000001, 0x00000002, 0x00000003, 0x00000004, 0x00000005]

/-- A write of a command's word to CMD is that command (R29, R70), so its well-formed name is the command's constructor and not
`wr` (log 7). Every other write, the reserved command words among them, and every read is well formed. -/
def Instr.wf : Instr → Bool
  | .clamp => true
  | .init => true
  | .absorb => true
  | .final => true
  | .clear => true
  | .wr o v => !(o == cmdOffset && commandWords.contains v)
  | .rd _ => true

end Sys2Proof
end

