-- ==== Sys2Proof/Decode.lean ====
section
/-! DEFINITION. Decoding of command words and of bus accesses, then the encoder (spec 30_encoding.md, 40_register_access.md R100). -/

namespace Sys2Proof

/-- R71: the command a CMD word names, or none where the word is ILLEGAL. -/
def decodeCommand (w : Word) : Option Command :=
  if w.extractLsb' 8 24 ≠ 0 then none
  else
    let opcode := w.extractLsb' 0 8
    if opcode = 0x01 then some .clamp
    else if opcode = 0x02 then some .init
    else if opcode = 0x03 then some .absorb
    else if opcode = 0x04 then some .final
    else if opcode = 0x05 then some .clear
    else none

/-- The instruction of a command. -/
def Command.instr : Command → Instr
  | .clamp => .clamp
  | .init => .init
  | .absorb => .absorb
  | .final => .final
  | .clear => .clear

/-- What an access is to the engine. -/
inductive Decoded where
  /-- It touches no byte of the window and "does not reach the engine" (R100, log 4; log 16 for width 0 at offset 0). -/
  | outside
  /-- It touches the window and is not an aligned 32-bit access: "The model refuses such an access" (20_memory.md R54; log 5, 6;
  log 16 for width 0 at an offset 1..255). -/
  | unsupported
  /-- It is this instruction. -/
  | instr (i : Instr)
  deriving DecidableEq, Repr

/-- Whether an access of `width` bytes from offset `off` touches a byte of the 256-byte window (R50, R100). DESIGN CHOICE for an
access of width 0, which no rule speaks of (log 16): one at offset 0 does not touch the window, though one at an offset 1..255 is
taken to touch it. -/
def touchesWindow (off : Int) (width : Nat) : Bool :=
  decide (off < 256) && decide (0 < off + width)

/-- Whether R54 admits an access that touches the window: 32 bits wide, at a multiple of 4. -/
def admittedShape (off : Int) (width : Nat) : Bool :=
  width == 4 && off % 4 == 0

/-- Bits [7:2] of an offset inside the window. -/
def wordOffset (off : Int) : BitVec 6 := BitVec.ofNat 6 (off.toNat / 4)

/-- R29 and R101: a write to CMD of a command's word is that command; any other write is WR. -/
def decodeWrite (o : BitVec 6) (v : Word) : Instr :=
  if o = cmdOffset then
    match decodeCommand v with
    | some c => c.instr
    | none => .wr o v
  else .wr o v

/-- Decoding of an access, total: outside the window, refused by R54, or an instruction. -/
def decodeAccess : BusAccess → Decoded
  | .read off width =>
    if touchesWindow off width then
      if admittedShape off width then .instr (.rd (wordOffset off)) else .unsupported
    else .outside
  | .write off width v =>
    if touchesWindow off width then
      if admittedShape off width then .instr (decodeWrite (wordOffset off) v) else .unsupported
    else .outside

/-- `MemRead(addr, width)` of R13, at a bus address. -/
def memRead (addr width : Nat) : BusAccess := .read ((addr : Int) - Config.base) width

/-- `MemWrite(addr, width, v)` of R13, at a bus address. -/
def memWrite (addr width : Nat) (v : Word) : BusAccess := .write ((addr : Int) - Config.base) width v

/-- The access that a word of the opcode table stands for. A 32-bit row is a command word written to CMD (R70). The rows WR and
RD give the same 8 bits, the offset byte; the table's word carries no direction, and it is read as WR, with the payload above it
(log 8). -/
def tableAccess (nbits w : Nat) : Option BusAccess :=
  if nbits = 32 then some (.write 0x0C 4 (BitVec.ofNat 32 w))
  else if nbits = 8 ∨ nbits = 40 then some (.write ((w % 256 : Nat) : Int) 4 (BitVec.ofNat 32 (w % 2 ^ nbits / 256)))
  else none

/-- The instruction the decoder reads from a word of the opcode table. -/
def decodeTableWord (nbits w : Nat) : Option Instr :=
  match tableAccess nbits w with
  | none => none
  | some a =>
    match decodeAccess a with
    | .instr i => some i
    | .outside => none
    | .unsupported => none

/-- The command words of R72. -/
def Command.word : Command → Word
  | .clamp => 0x00000001
  | .init => 0x00000002
  | .absorb => 0x00000003
  | .final => 0x00000004
  | .clear => 0x00000005

/-- A command is one 32-bit write to CMD at offset 0x0C (R70). -/
def encodeCommand (c : Command) : BusAccess := .write 0x0C 4 c.word

/-- The access that delivers an instruction: the triples (kind, offset, value) of R76. -/
def encode : Instr → BusAccess
  | .clamp => encodeCommand .clamp
  | .init => encodeCommand .init
  | .absorb => encodeCommand .absorb
  | .final => encodeCommand .final
  | .clear => encodeCommand .clear
  | .wr o v => .write (4 * o.toNat) 4 v
  | .rd o => .read (4 * o.toNat) 4

end Sys2Proof
end

