-- ==== Sys2Proof/Machine/State.lean ====
section
/-! DEFINITION. The engine's registers (spec 10_state.md), the model's two bus fields, and the reset state. -/

namespace Sys2Proof.Machine

open Sys2Proof

/-- STATE, the 2-bit lifecycle state (R26). Its codes are `Lifecycle.code`. -/
inductive Lifecycle where
  /-- START (0): no key set up. -/
  | start
  /-- KEY_READY (1): INIT succeeded, no block absorbed since. -/
  | keyReady
  /-- FOLDING (2): at least one block absorbed since INIT. -/
  | folding
  /-- DONE (3): FINAL produced the tag. -/
  | done
  deriving DecidableEq, Repr

/-- CTRL.POLICY, the chunk-count rule FINAL applies (R24). The reserved value 3 is "never held" (log 9). -/
inductive Policy where
  /-- DESIGN (0): max(1, ceil(L/16)) chunks. -/
  | design
  /-- REFERENCE (1): L/16 + 1 chunks. -/
  | reference
  /-- STANDARD (2): ceil(L/16) chunks. -/
  | standard
  deriving DecidableEq, Repr

/-- ERR, the 4-bit result of the latest command (R27, 60_exceptions.md R220). Codes 5..15 are "never produced" (log 9). -/
inductive ErrorCode where
  /-- OK (0): the command succeeded. -/
  | ok
  /-- INVALID_KEY_LENGTH (1): INIT with KEY_LEN ≠ 32. -/
  | invalidKeyLength
  /-- INVALID_BLOCK_LENGTH (2): ABSORB with BLK_LEN > 16. -/
  | invalidBlockLength
  /-- SEQUENCE (3): ABSORB or FINAL in START or DONE. -/
  | sequence
  /-- ILLEGAL_COMMAND (4): a CMD word outside the opcode map. -/
  | illegalCommand
  deriving DecidableEq, Repr

/-- The registers of the window by name (R22). -/
inductive Reg where
  | id
  | ctrl
  | status
  | cmd
  | keyLen
  | blkLen
  | blkCnt
  | key (i : Fin 8)
  | blk (i : Fin 4)
  | tag (i : Fin 4)
  | acc (i : Fin 5)
  | reserved
  deriving DecidableEq, Repr

/-- The engine state: "the tuple of the registers below and nothing else" (R20). ID is a constant, STATUS and ACC0..ACC4 are
views, and CMD holds no value, so none of these is a field. -/
structure Engine where
  /-- CTRL.POLICY (R23, R24); CTRL's other bits are reserved and hold nothing (R40). -/
  policy : Policy
  /-- KEY_LEN (R30). -/
  keyLen : Word
  /-- BLK_LEN (R31). -/
  blkLen : Word
  /-- BLKCNT (R32). -/
  blkCnt : Word
  /-- KEY0..KEY7 (R33). -/
  key : Vector Word 8
  /-- BLK0..BLK3 (R34). -/
  blk : Vector Word 4
  /-- TAG0..TAG3 (R35). -/
  tag : Vector Word 4
  /-- R, the latched multiplier (R37). -/
  r : BitVec 128
  /-- S, the latched additive mask (R38). -/
  s : BitVec 128
  /-- ACC, the accumulator (R39). -/
  acc : BitVec 130
  /-- STATE (R26). -/
  state : Lifecycle
  /-- ERR (R27). -/
  err : ErrorCode
  /-- LAST_LEN (R28). -/
  lastLen : BitVec 5
  deriving DecidableEq, Repr

/-- The engine and its bus. `inputs` and `response` are the model's own (log 2, 3). -/
structure State where
  /-- The engine's registers. -/
  engine : Engine
  /-- What the outside world does next, oldest first: the order in which the bus delivers the accesses (20_memory.md R60). -/
  inputs : List Input
  /-- The word the access just served returned to the host (R102); none where it returned no word. -/
  response : Option Word
  deriving DecidableEq, Repr

/-- The reasons a step can stop with a fault: none. "The engine has no stuck state and no hang" (60_exceptions.md R236), and every
error is a result in STATUS.ERR (R221, R226; log 9). -/
inductive Fault where
  deriving DecidableEq, Repr

/-- The reasons a step refuses. -/
inductive Refusal where
  /-- An instruction with no meaning yet. Raised by `exec`'s refused arms, of which there are none. Safe. -/
  | notModelled (mnemonic : String)
  /-- Raised by `step` for an access to the window that is not 32 bits wide at a multiple of 4: "The model refuses such an access:
  it has no step, and the host is at fault" (20_memory.md R54; 93_implementation_defined.md I4). Safe. -/
  | unsupportedAccess
  deriving DecidableEq, Repr

/-- Every register at its reset value (R42; 70_reset_and_hazards.md R250). -/
def Engine.reset : Engine where
  policy := .design
  keyLen := 0
  blkLen := 0
  blkCnt := 0
  key := Vector.replicate 8 0
  blk := Vector.replicate 4 0
  tag := Vector.replicate 4 0
  r := 0
  s := 0
  acc := 0
  state := .start
  err := .ok
  lastLen := 0

/-- The machine right after reset: in START, waiting for host accesses (R251). -/
def State.reset : State where
  engine := Engine.reset
  inputs := []
  response := none

end Sys2Proof.Machine
end

