-- ==== Sys2Proof/Machine/Flags.lean ====
section
/-! DEFINITION. The codes of STATE, ERR and POLICY, the STATUS word, and the conditions commands read from them
(spec 10_state.md R23 to R28; 43_finalize.md R161). -/

namespace Sys2Proof.Machine

open Sys2Proof

/-- The 2-bit codes of STATE (R26). -/
def Lifecycle.code : Lifecycle → BitVec 2
  | .start => 0
  | .keyReady => 1
  | .folding => 2
  | .done => 3

/-- The 4-bit codes of ERR (R27). -/
def ErrorCode.code : ErrorCode → BitVec 4
  | .ok => 0
  | .invalidKeyLength => 1
  | .invalidBlockLength => 2
  | .sequence => 3
  | .illegalCommand => 4

/-- The 2-bit codes of CTRL.POLICY (R24). -/
def Policy.code : Policy → BitVec 2
  | .design => 0
  | .reference => 1
  | .standard => 2

/-- `write_ctrl(old, v)`: POLICY becomes v[1:0] if that is 0, 1 or 2, and stays if it is 3; the other bits are ignored
(40_register_access.md R103). -/
def writeCtrl (old : Policy) (v : Word) : Policy :=
  let field := v.extractLsb' 0 2
  if field = 0 then .design
  else if field = 1 then .reference
  else if field = 2 then .standard
  else old

/-- CTRL as it reads: POLICY in bits [1:0], the rest 0 (R23). -/
def ctrlWord (e : Engine) : Word := e.policy.code.setWidth 32

/-- STATUS as it reads: STATE, ERR << 4 and LAST_LEN << 8 (R25). -/
def statusWord (e : Engine) : Word :=
  e.state.code.setWidth 32 ||| (e.err.code.setWidth 32 <<< 4) ||| (e.lastLen.setWidth 32 <<< 8)

/-- The states in which ABSORB and FINAL are legal: KEY_READY and FOLDING (30_encoding.md R72). -/
def Lifecycle.inMessage : Lifecycle → Bool
  | .start => false
  | .keyReady => true
  | .folding => true
  | .done => false

/-- Whether FINAL folds a pad block (R161). -/
def padNeeded (e : Engine) : Bool :=
  match e.policy with
  | .design => e.state == .keyReady
  | .reference => e.state == .keyReady || e.lastLen == 16
  | .standard => false

end Sys2Proof.Machine
end

