-- ==== Sys2Proof/Machine/Operands.lean ====
section
/-! DEFINITION. The register map, operand assembly and the views of wide registers (spec 10_state.md R22, R36; 30_encoding.md R74). -/

namespace Sys2Proof.Machine

open Sys2Proof

/-- The constant ID reads (R22). -/
def identity : Word := 0x13050001

/-- The register at window offset `4·o`: the map of R22. -/
def regAt (o : BitVec 6) : Reg :=
  let off := 4 * o.toNat
  if off = 0x00 then .id
  else if off = 0x04 then .ctrl
  else if off = 0x08 then .status
  else if off = 0x0C then .cmd
  else if off = 0x10 then .keyLen
  else if off = 0x14 then .blkLen
  else if off = 0x18 then .blkCnt
  else if off = 0x1C then .reserved
  else if off < 0x40 then .key (Fin.ofNat 8 ((off - 0x20) / 4))
  else if off < 0x50 then .blk (Fin.ofNat 4 ((off - 0x40) / 4))
  else if off < 0x60 then .tag (Fin.ofNat 4 ((off - 0x50) / 4))
  else if off < 0x74 then .acc (Fin.ofNat 5 ((off - 0x60) / 4))
  else .reserved

/-- The 128-bit number of four words, the first the least significant (20_memory.md R52, R74). -/
def joinWords (w0 w1 w2 w3 : Word) : BitVec 128 :=
  BitVec.ofNat 128 (w0.toNat + w1.toNat * 2 ^ 32 + w2.toNat * 2 ^ 64 + w3.toNat * 2 ^ 96)

/-- The four words of a 128-bit number: word `i` is bits [32i+31:32i] (R35, R52). -/
def splitWords (t : BitVec 128) : Vector Word 4 :=
  #v[t.extractLsb' 0 32, t.extractLsb' 32 32, t.extractLsb' 64 32, t.extractLsb' 96 32]

/-- `r_raw` of R74: KEY0..KEY3 as a little-endian number. -/
def Engine.rRaw (e : Engine) : BitVec 128 := joinWords e.key[0] e.key[1] e.key[2] e.key[3]

/-- `s` of R74: KEY4..KEY7 as a little-endian number. -/
def Engine.sRaw (e : Engine) : BitVec 128 := joinWords e.key[4] e.key[5] e.key[6] e.key[7]

/-- `blk` of R74: BLK0..BLK3 as a little-endian number. -/
def Engine.blkRaw (e : Engine) : BitVec 128 := joinWords e.blk[0] e.blk[1] e.blk[2] e.blk[3]

/-- The block value of a chunk of length `l` in the number `blk`: `(blk mod 2^(8l)) + 2^(8l)` (42_block_accumulation.md R142). -/
def blockValue (l : Nat) (blk : BitVec 128) : Nat := blk.toNat % 2 ^ (8 * l) + 2 ^ (8 * l)

/-- ACC0..ACC4: ACCi is ACC[32i+31:32i] for i < 4, and ACC4 is ACC[129:128] zero-extended (R36). -/
def accWord (acc : BitVec 130) (i : Fin 5) : Word :=
  if i.val < 4 then acc.extractLsb' (32 * i.val) 32 else (acc.extractLsb' 128 2).setWidth 32

end Sys2Proof.Machine
end

