-- ==== Sys2Proof/Machine/Ops.lean ====
section
/-! DEFINITION. The operations the commands share: reporting an error, aborting a message, the clamp, folding a block, the tag. -/

namespace Sys2Proof.Machine

open Sys2Proof

/-- The field prime P = 2^130 − 5 (spec 00_scope.md R9). -/
def P : Nat := 2 ^ 130 - 5

/-- The instruction completes: the engine takes its new value, and the bus fields stay. -/
def State.complete (f : Engine → Engine) (s : State) : Host.Outcome State Fault Refusal :=
  .next { s with engine := f s.engine }

/-- `raise Error(code)` (R13; 60_exceptions.md R221): ERR takes the code and nothing else changes. It is this hardware's whole
error entry: nothing is saved and control goes nowhere (R226), so there is no return from it (R227). -/
def Engine.raise (code : ErrorCode) (e : Engine) : Engine := { e with err := code }

/-- INIT's first step: abort whatever computation is in progress (41_key_setup.md R123). -/
def Engine.abort (e : Engine) : Engine :=
  { e with
    r := 0, s := 0, acc := 0
    tag := Vector.replicate 4 0
    blkCnt := 0, lastLen := 0
    state := .start }

/-- The mask of KEY0 (R121). -/
def clampMask0 : Word := 0x0FFFFFFF

/-- The mask of KEY1, KEY2 and KEY3 (R121). -/
def clampMask : Word := 0x0FFFFFFC

/-- The clamp on the 128-bit number r (R13, R121). -/
def clamp128 (v : BitVec 128) : BitVec 128 := v &&& 0x0ffffffc0ffffffc0ffffffc0fffffff

/-- The clamp of the four r words in place (R120, without its ERR write). -/
def Engine.clampKey (e : Engine) : Engine :=
  { e with
    key := (((e.key.set 0 (e.key[0] &&& clampMask0)).set 1 (e.key[1] &&& clampMask)).set 2
      (e.key[2] &&& clampMask)).set 3 (e.key[3] &&& clampMask) }

/-- `((acc + n)·r) mod P`, computed exactly (R10; 42_block_accumulation.md R142). -/
def foldBlock (acc : BitVec 130) (r : BitVec 128) (n : Nat) : BitVec 130 :=
  BitVec.ofNat 130 ((acc.toNat + n) * r.toNat % P)

/-- Fold one block of length `l` and value `n`: ACC, BLKCNT modulo 2^32, and LAST_LEN (R140; R160 for the pad). -/
def Engine.foldIn (l n : Nat) (e : Engine) : Engine :=
  { e with
    acc := foldBlock e.acc e.r n
    blkCnt := e.blkCnt + 1
    lastLen := BitVec.ofNat 5 l }

/-- `T = (acc + s) mod 2^128` (43_finalize.md R162). -/
def tagSum (acc : BitVec 130) (s : BitVec 128) : BitVec 128 := BitVec.ofNat 128 (acc.toNat + s.toNat)

end Sys2Proof.Machine
end

