-- ==== Sys2Proof/Machine/BlockAccumulation.lean ====
section
/-! DEFINITION. ABSORB (spec 42_block_accumulation.md). -/

namespace Sys2Proof.Machine

open Sys2Proof

/-- R140, with the checks of R141 in their order: STATE, then length. -/
def Engine.absorb (e : Engine) : Engine :=
  if !e.state.inMessage then e.raise .sequence
  else if 16 < e.blkLen.toNat then e.raise .invalidBlockLength
  else { e.foldIn e.blkLen.toNat (blockValue e.blkLen.toNat e.blkRaw) with state := .folding, err := .ok }

/-- ABSORB. -/
def execAbsorb (s : State) : Host.Outcome State Fault Refusal := s.complete Engine.absorb

end Sys2Proof.Machine
end

