-- ==== Sys2Proof/Machine/Control.lean ====
section
/-! DEFINITION. CLEAR and the reserved command words (spec 44_control.md). -/

namespace Sys2Proof.Machine

open Sys2Proof

/-- R180: every register but ID and CTRL to 0, STATE ← START, ERR ← OK. -/
def Engine.clear (e : Engine) : Engine :=
  { e with
    key := Vector.replicate 8 0
    blk := Vector.replicate 4 0
    tag := Vector.replicate 4 0
    keyLen := 0, blkLen := 0, blkCnt := 0
    r := 0, s := 0, acc := 0
    lastLen := 0
    state := .start
    err := .ok }

/-- CLEAR. -/
def execClear (s : State) : Host.Outcome State Fault Refusal := s.complete Engine.clear

/-- R181: a reserved command word raises ILLEGAL_COMMAND and changes nothing else. -/
def Engine.illegal (e : Engine) : Engine := e.raise .illegalCommand

end Sys2Proof.Machine
end

