-- ==== Sys2Proof/Machine/Finalize.lean ====
section
/-! DEFINITION. FINAL (spec 43_finalize.md). -/

namespace Sys2Proof.Machine

open Sys2Proof

/-- The pad block: a zero-length chunk, of value 1 (R160, R161). -/
def Engine.pad (e : Engine) : Engine := if padNeeded e then e.foldIn 0 1 else e

/-- Write the tag, consume R, S and ACC, enter DONE (R162, R163). -/
def Engine.writeTag (e : Engine) : Engine :=
  { e with
    tag := splitWords (tagSum e.acc e.s)
    r := 0, s := 0, acc := 0
    state := .done
    err := .ok }

/-- R160. -/
def Engine.final (e : Engine) : Engine :=
  if !e.state.inMessage then e.raise .sequence else e.pad.writeTag

/-- FINAL. -/
def execFinal (s : State) : Host.Outcome State Fault Refusal := s.complete Engine.final

end Sys2Proof.Machine
end

