-- ==== Sys2Proof/Machine/KeySetup.lean ====
section
/-! DEFINITION. CLAMP and INIT (spec 41_key_setup.md). -/

namespace Sys2Proof.Machine

open Sys2Proof

/-- R120: the four r words masked, ERR ← OK. Legal in every STATE. -/
def Engine.clamp (e : Engine) : Engine := { e.clampKey with err := .ok }

/-- Steps 3 to 5 of INIT (R123): clamp, latch S and the clamped R, enter KEY_READY. -/
def Engine.latchKey (e : Engine) : Engine :=
  { e.clampKey with r := e.clampKey.rRaw, s := e.clampKey.sRaw, state := .keyReady, err := .ok }

/-- R123: abort, then INVALID_KEY_LENGTH if KEY_LEN ≠ 32 (R125), else the key is set up. -/
def Engine.init (e : Engine) : Engine :=
  if e.keyLen ≠ 32 then e.abort.raise .invalidKeyLength else e.abort.latchKey

/-- CLAMP. -/
def execClamp (s : State) : Host.Outcome State Fault Refusal := s.complete Engine.clamp

/-- INIT. -/
def execInit (s : State) : Host.Outcome State Fault Refusal := s.complete Engine.init

end Sys2Proof.Machine
end

