-- ==== Sys2Proof/Machine/RegisterAccess.lean ====
section
/-! DEFINITION. WR and RD (spec 40_register_access.md). -/

namespace Sys2Proof.Machine

open Sys2Proof

/-- The effect of each command on the engine. -/
def Engine.command : Command → Engine → Engine
  | .clamp => Engine.clamp
  | .init => Engine.init
  | .absorb => Engine.absorb
  | .final => Engine.final
  | .clear => Engine.clear

/-- `execute(decode(w))` of R101, for a word written to CMD. -/
def Engine.commandWord (w : Word) (e : Engine) : Engine :=
  match decodeCommand w with
  | some c => e.command c
  | none => e.illegal

/-- A write of the word `v` to a register (R101, R103, R104). Read-only and reserved offsets ignore it. -/
def writeReg (g : Reg) (v : Word) (e : Engine) : Engine :=
  match g with
  | .ctrl => { e with policy := writeCtrl e.policy v }
  | .cmd => e.commandWord v
  | .keyLen => { e with keyLen := v }
  | .blkLen => { e with blkLen := v }
  | .key i => { e with key := e.key.set i.val v i.isLt }
  | .blk i => { e with blk := e.blk.set i.val v i.isLt }
  | .id => e
  | .status => e
  | .blkCnt => e
  | .tag _ => e
  | .acc _ => e
  | .reserved => e

/-- The word a register reads as (R102, R104). -/
def readReg (g : Reg) (e : Engine) : Word :=
  match g with
  | .id => identity
  | .ctrl => ctrlWord e
  | .status => statusWord e
  | .cmd => 0
  | .keyLen => e.keyLen
  | .blkLen => e.blkLen
  | .blkCnt => e.blkCnt
  | .key i => e.key[i.val]
  | .blk i => e.blk[i.val]
  | .tag i => e.tag[i.val]
  | .acc i => accWord e.acc i
  | .reserved => 0

/-- WR. -/
def execWr (o : BitVec 6) (v : Word) (s : State) : Host.Outcome State Fault Refusal :=
  s.complete (writeReg (regAt o) v)

/-- RD: the engine is unchanged, and the word goes back to the host. -/
def execRd (o : BitVec 6) (s : State) : Host.Outcome State Fault Refusal :=
  .next { s with response := some (readReg (regAt o) s.engine) }

end Sys2Proof.Machine
end

