-- ==== Sys2Proof/Machine/Dispatch.lean ====
section
/-! DEFINITION. One arm per instruction. -/

namespace Sys2Proof.Machine

open Sys2Proof

def exec (i : Instr) (s : State) : Host.Outcome State Fault Refusal :=
  match i with
  | .clamp => Sys2Proof.Machine.execClamp s
  | .init => Sys2Proof.Machine.execInit s
  | .absorb => Sys2Proof.Machine.execAbsorb s
  | .final => Sys2Proof.Machine.execFinal s
  | .clear => Sys2Proof.Machine.execClear s
  | .wr o v => Sys2Proof.Machine.execWr o v s
  | .rd o => Sys2Proof.Machine.execRd o s

end Sys2Proof.Machine
end

