-- ==== Sys2Proof/Machine/Step.lean ====
section
/-! DEFINITION. One step: the engine serves the next input of its bus (spec 20_memory.md R60; 70_reset_and_hazards.md R250 to R252). -/

namespace Sys2Proof.Machine

open Sys2Proof

/-- Serve one access. Outside the window it does not reach the engine (40_register_access.md R100); an access R54 does not admit
is refused. -/
def serve (a : BusAccess) (s : State) : Host.Outcome State Fault Refusal :=
  match decodeAccess a with
  | .outside => .next s
  | .unsupported => .refused .unsupportedAccess
  | .instr i => exec i s

/-- One step. With no input pending the engine waits, unchanged (R251). Otherwise it takes the oldest input: a hardware reset sets
every register to its reset value (R250), and an access is served whole before the next one (R60). -/
def step (s : State) : Host.Outcome State Fault Refusal :=
  match s.inputs with
  | [] => .next s
  | .reset :: rest => .next { engine := Engine.reset, inputs := rest, response := none }
  | .access a :: rest => serve a { s with inputs := rest, response := none }

/-- `s` with the access that a word of the opcode table stands for as the next input (log 2, 8). -/
def State.withFetchWord (s : State) (nbits w : Nat) : State :=
  match tableAccess nbits w with
  | none => s
  | some a => { s with inputs := .access a :: s.inputs }

end Sys2Proof.Machine
end

