-- ==== Sys2Proof/Machine/Message.lean ====
section
/-! DEFINITION. The whole-message function Poly1305_pol as a mathematical function (spec 45_message_sequence.md R200, R201). -/

namespace Sys2Proof.Machine

open Sys2Proof

/-- `le(b)`: a byte sequence as a little-endian number (00_scope.md R12). -/
def le : List Byte → Nat
  | [] => 0
  | b :: bs => b.toNat + 256 * le bs

/-- `le_bytes(v, n)`: byte `i` is `(v / 2^(8i)) mod 256` (R12). -/
def leBytes (v n : Nat) : List Byte := (List.range n).map fun i => BitVec.ofNat 8 (v / 2 ^ (8 * i) % 256)

/-- The base partition (R201): full 16-byte chunks, then the tail if the length is no multiple of 16. -/
def baseChunks (m : List Byte) : List (List Byte) :=
  let q := m.length / 16
  (List.range q).map (fun i => (m.drop (16 * i)).take 16) ++
    if 0 < m.length % 16 then [m.drop (16 * q)] else []

/-- `chunks_pol(m)` (R201). -/
def chunks (pol : Policy) (m : List Byte) : List (List Byte) :=
  match pol with
  | .design => baseChunks m ++ if m.length = 0 then [[]] else []
  | .reference => baseChunks m ++ if m.length % 16 = 0 then [[]] else []
  | .standard => baseChunks m

/-- One iteration of the function's loop (R200): `acc ← ((acc + le(c) + 2^(8·len(c)))·r) mod P`. -/
def foldChunk (r acc : Nat) (c : List Byte) : Nat := (acc + le c + 2 ^ (8 * c.length)) * r % P

/-- `Poly1305_pol(m, k)` (R200): the 16-byte tag, or InvalidKeyLength. -/
def poly1305 (pol : Policy) (m k : List Byte) : Except ErrorCode (List Byte) :=
  if k.length ≠ 32 then .error .invalidKeyLength
  else
    let r := (clamp128 (BitVec.ofNat 128 (le (k.take 16)))).toNat
    let s := le (k.drop 16)
    let acc := (chunks pol m).foldl (foldChunk r) 0
    .ok (leBytes ((acc + s) % 2 ^ 128) 16)

/-- A group of 32-bit registers as its bytes: byte k is in word k/4 at bits [8(k mod 4)+7 : 8(k mod 4)] (20_memory.md R52). -/
def groupBytes {n : Nat} (g : Vector Word n) : List Byte := g.toList.flatMap fun w => leBytes w.toNat 4

end Sys2Proof.Machine
end

