-- ==== Sys2Proof/Machine/Protocol.lean ====
section
/-! DEFINITION. The host's transactions, the pseudo-instructions and the protocol that computes a tag
(spec 30_encoding.md R76, R77; 45_message_sequence.md R202). -/

namespace Sys2Proof.Machine

open Sys2Proof

/-- `WR off, v` (R76). -/
def wrAt (off : Nat) (v : Word) : BusAccess := .write off 4 v

/-- `RD off` (R76). -/
def rdAt (off : Nat) : BusAccess := .read off 4

/-- `CMD c` (R77). -/
def cmd (c : Command) : List BusAccess := [wrAt 0x0C c.word]

/-- `SETPOL p` (R77). -/
def setPol (pol : Policy) : List BusAccess := [wrAt 0x04 (pol.code.setWidth 32)]

/-- Byte string `b` padded with zero bytes to `n` bytes. -/
def padBytes (n : Nat) (b : List Byte) : List Byte := b ++ List.replicate (n - b.length) 0

/-- `WR base+4i, le(b[4i..4i+4])` for i = 0..n−1. -/
def loadWords (base n : Nat) (b : List Byte) : List BusAccess :=
  (List.range n).map fun i => wrAt (base + 4 * i) (BitVec.ofNat 32 (le ((b.drop (4 * i)).take 4)))

/-- `LDKEYN k, len(k)` (R77): the first min(len(k), 32) bytes, padded, then KEY_LEN; no byte past the 32nd is written. A length
that does not fit KEY_LEN is written modulo 2^32 (log 14). -/
def ldKeyN (k : List Byte) : List BusAccess :=
  loadWords 0x20 8 (padBytes 32 (k.take (min k.length 32))) ++ [wrAt 0x10 (BitVec.ofNat 32 k.length)]

/-- `LDKEY k` (R77), for a key of exactly 32 bytes. -/
def ldKey (k : List Byte) : List BusAccess := loadWords 0x20 8 k ++ [wrAt 0x10 0x00000020]

/-- `LDBLK c` (R77), for a chunk of at most 16 bytes. -/
def ldBlk (c : List Byte) : List BusAccess :=
  loadWords 0x40 4 (padBytes 16 c) ++ [wrAt 0x14 (BitVec.ofNat 32 c.length)]

/-- `ABS c` (R77). -/
def absChunk (c : List Byte) : List BusAccess := ldBlk c ++ cmd .absorb

/-- `RDSTAT` (R77). -/
def rdStat : List BusAccess := [rdAt 0x08]

/-- `RDTAG` (R77). -/
def rdTag : List BusAccess := [rdAt 0x50, rdAt 0x54, rdAt 0x58, rdAt 0x5C]

/-- `RDACC` (R77). -/
def rdAcc : List BusAccess := [rdAt 0x60, rdAt 0x64, rdAt 0x68, rdAt 0x6C, rdAt 0x70]

/-- `RDKEY` (R77). -/
def rdKey : List BusAccess := (List.range 8).map fun i => rdAt (0x20 + 4 * i)

/-- The protocol of R202. The host feeds only the base partition; FINAL adds the pad block. -/
def protocol (pol : Policy) (m k : List Byte) : List BusAccess :=
  setPol pol ++ ldKeyN k ++ cmd .init ++ rdStat ++ (baseChunks m).flatMap absChunk ++ cmd .final ++ rdTag

end Sys2Proof.Machine
end

