-- ==== Sys2Proof/Safety.lean ====
section
/-! DEFINITION. The invariants of every reachable state (spec 10_state.md R41) and the inputs a safe run consists of. -/

namespace Sys2Proof.Machine

open Sys2Proof

/-- R41 (a) to (f). (g) and (h) hold of every `Engine` by the types `Policy` and `ErrorCode` (log 9). -/
structure Engine.Inv (e : Engine) : Prop where
  /-- (a) ACC < P. -/
  accBelowP : e.acc.toNat < P
  /-- (b) In START and DONE, R, S and ACC are 0. -/
  idleZero : e.state = .start ∨ e.state = .done → e.r = 0 ∧ e.s = 0 ∧ e.acc = 0
  /-- (c) In KEY_READY and FOLDING, R is clamped. -/
  rClamped : e.state = .keyReady ∨ e.state = .folding → e.r = clamp128 e.r
  /-- (d) In KEY_READY, ACC, BLKCNT and LAST_LEN are 0. -/
  keyReadyZero : e.state = .keyReady → e.acc = 0 ∧ e.blkCnt = 0 ∧ e.lastLen = 0
  /-- (e) Outside DONE, TAG0..TAG3 are 0. -/
  tagOnlyDone : e.state ≠ .done → e.tag = Vector.replicate 4 0
  /-- (f) LAST_LEN ≤ 16. -/
  lastLenBound : e.lastLen.toNat ≤ 16

/-- R54: an input the model has a step for: the reset, an aligned 32-bit access to the window, or an access outside it. -/
def admitted : Input → Bool
  | .reset => true
  | .access a => decide (decodeAccess a ≠ .unsupported)

/-- A state whose host keeps to R54 in every input still to come. A run from it is safe: no step of it refuses. -/
def State.hostKeepsR54 (s : State) : Prop := ∀ x ∈ s.inputs, admitted x = true

end Sys2Proof.Machine
end

