-- ==== Sys2Proof/Certificates/Slice0/Obligations.lean ====
section
/-! DEFINITION. The statements about the engine, each from numbered rules of spec/. -/

namespace Sys2Proof.Claims

open Sys2Proof Sys2Proof.Machine

/-- `w0 + w1·2^32 + w2·2^64 + w3·2^96` (30_encoding.md R74), as an exact number. -/
def wordSum (w0 w1 w2 w3 : Word) : Nat :=
  w0.toNat + w1.toNat * 2 ^ 32 + w2.toNat * 2 ^ 64 + w3.toNat * 2 ^ 96

/-- The number in BLK0..BLK3. -/
def blkSum (e : Engine) : Nat := wordSum e.blk[0] e.blk[1] e.blk[2] e.blk[3]

/-- The block value of the chunk in BLK0..BLK3 and BLK_LEN: `(blk mod 2^(8l)) + 2^(8l)` (42_block_accumulation.md R140). -/
def blockNumber (e : Engine) : Nat := blkSum e % 2 ^ (8 * e.blkLen.toNat) + 2 ^ (8 * e.blkLen.toNat)

/-- KEY0..KEY7 with the r half masked as the table of 41_key_setup.md R121 says. -/
def clampedKey (k : Vector Word 8) : Vector Word 8 :=
  #v[k[0] &&& 0x0FFFFFFF, k[1] &&& 0x0FFFFFFC, k[2] &&& 0x0FFFFFFC, k[3] &&& 0x0FFFFFFC, k[4], k[5], k[6], k[7]]

/-- A message is in progress: STATE is KEY_READY or FOLDING. -/
def inMessage (e : Engine) : Prop := e.state = .keyReady ∨ e.state = .folding

/-- FINAL's pad decision as R160 writes it. -/
def pads (e : Engine) : Prop :=
  e.policy = .design ∧ e.state = .keyReady ∨ e.policy = .reference ∧ (e.state = .keyReady ∨ e.lastLen = 16)

/-- `s` with the inputs `a`, a list of accesses, on its bus. -/
def withAccesses (s : State) (a : List BusAccess) : State := { s with inputs := a.map .access }

/-- `s` with another key in KEY0..KEY7. -/
def withKey (s : State) (k : Vector Word 8) : State := { s with engine := { s.engine with key := k } }

/-- `s` with another CTRL.POLICY. -/
def withPolicy (s : State) (p : Policy) : State := { s with engine := { s.engine with policy := p } }

/-- Bit `i` of r is one the clamp clears: the top 4 bits of bytes 3, 7, 11, 15 and the low 2 bits of bytes 4, 8, 12 (R121). -/
def clampClears (i : Nat) : Bool :=
  ([3, 7, 11, 15].contains (i / 8) && decide (4 ≤ i % 8)) || ([4, 8, 12].contains (i / 8) && decide (i % 8 < 2))

end Sys2Proof.Claims

open Sys2Proof Sys2Proof.Machine Sys2Proof.Claims

/-! ## Encoding -/

/-- Words written out from the encodings of 30_encoding.md R70, R72 and R76 decode to their instructions. A sanity statement. -/
def Obligations.SampleWordsDecode : Prop :=
  decodeAccess (.write 0x0C 4 0x00000001) = .instr .clamp ∧
  decodeAccess (.write 0x0C 4 0x00000002) = .instr .init ∧
  decodeAccess (.write 0x0C 4 0x00000003) = .instr .absorb ∧
  decodeAccess (.write 0x0C 4 0x00000004) = .instr .final ∧
  decodeAccess (.write 0x0C 4 0x00000005) = .instr .clear ∧
  decodeAccess (.write 0x14 4 0x00000010) = .instr (.wr 0b000101 0x00000010) ∧
  decodeAccess (.read 0x5C 4) = .instr (.rd 0b010111)

/-- R71: every 32-bit word decodes to exactly one of six outcomes. -/
def Obligations.EveryCommandWordHasOneOfSixOutcomes : Prop :=
  ∀ w : Word,
    (decodeCommand w = some .clamp ↔ w.toNat = 1) ∧ (decodeCommand w = some .init ↔ w.toNat = 2) ∧
    (decodeCommand w = some .absorb ↔ w.toNat = 3) ∧ (decodeCommand w = some .final ↔ w.toNat = 4) ∧
    (decodeCommand w = some .clear ↔ w.toNat = 5) ∧ (decodeCommand w = none ↔ w.toNat = 0 ∨ 6 ≤ w.toNat)

/-- Decoding the access that encodes a well-formed instruction gives the instruction back, whatever its operands. -/
def Obligations.DecodeOfEncodeIsTheInstruction : Prop :=
  ∀ i : Instr, i.wf = true → decodeAccess (encode i) = .instr i

/-- Each access has one meaning: what decodes to an instruction is that instruction's encoding, and the instruction is well formed. -/
def Obligations.EncodeOfDecodeIsTheAccess : Prop :=
  ∀ (a : BusAccess) (i : Instr), decodeAccess a = .instr i → i.wf = true ∧ encode i = a

/-! ## The step -/

/-- When the oldest input is an access that decodes to `i`, the step is `exec i` with that input taken from the bus. -/
def Obligations.StepRunsTheDecodedInstruction : Prop :=
  ∀ (s : State) (a : BusAccess) (rest : List Input) (i : Instr),
    s.inputs = .access a :: rest → decodeAccess a = .instr i →
    step s = exec i { s with inputs := rest, response := none }

/-- An access that touches the window is served when it is 32 bits wide at a multiple of 4, and refused otherwise (20_memory.md R54;
log 5 where the access lies partly outside the window). An access of width 0 at an offset 1..255 falls under the refusal by the
model's choice (log 16). -/
def Obligations.OnlyAlignedWordAccessesAreServed : Prop :=
  ∀ (s : State) (off : Int) (width : Nat) (v : Word) (rest : List Input) (a : BusAccess),
    a = .read off width ∨ a = .write off width v → s.inputs = .access a :: rest → off < 256 → 0 < off + width →
    if width = 4 ∧ off % 4 = 0 then ∃ t, step s = .next t else step s = .refused .unsupportedAccess

/-- The addressing of 40_register_access.md R100, for every BASE: the access at bus address BASE + 4·o runs RD or WR at o; an access outside the window leaves the engine
as it is; one that breaks the width or alignment rule is refused. The last clause takes in an access that lies partly outside the
window (log 5). For an access of width 0, of which the rule says nothing, the third clause at BASE and the last one above BASE are
the model's choice (log 16). -/
def Obligations.AccessesAreAbsoluteWithinTheWindow : Prop :=
  Config.base % 256 = 0 ∧
  ∀ (s : State) (rest : List Input) (addr width : Nat) (v : Word) (a : BusAccess),
    a = memRead addr width ∨ a = memWrite addr width v → s.inputs = .access a :: rest →
    (∀ o : BitVec 6, addr = Config.base + 4 * o.toNat → width = 4 → a = memRead addr width →
      step s = exec (.rd o) { s with inputs := rest, response := none }) ∧
    (∀ o : BitVec 6, addr = Config.base + 4 * o.toNat → width = 4 → a = memWrite addr width v →
      step s = exec (.wr o v) { s with inputs := rest, response := none }) ∧
    (addr + width ≤ Config.base ∨ Config.base + 256 ≤ addr →
      step s = .next { s with inputs := rest, response := none }) ∧
    (Config.base < addr + width → addr < Config.base + 256 → ¬(width = 4 ∧ addr % 4 = 0) →
      step s = .refused .unsupportedAccess)

/-- The engine waits: with no input pending a step changes nothing (the model's reading of R251, log 2). -/
def Obligations.EngineWaitsWithoutInput : Prop :=
  State.reset.engine.state = .start ∧ State.reset.inputs = [] ∧ ∀ s : State, s.inputs = [] → step s = .next s

/-- Serving one input does not depend on the inputs behind it, and leaves them in their order. For accesses this is 20_memory.md R60.
That the inputs behind a hardware reset stay in the list is the model's choice (log 10, within 70_reset_and_hazards.md R252), and so
is the list itself (log 2). -/
def Obligations.LaterInputsDoNotAffectTheStep : Prop :=
  ∀ (s t : State) (x : Input) (xs ys : List Input),
    step { s with inputs := x :: xs } = .next t →
    t.inputs = xs ∧ step { s with inputs := x :: ys } = .next { t with inputs := ys }

/-- R250: a hardware reset gives every register its reset value, in whatever state it comes. -/
def Obligations.HardwareResetSetsEveryRegister : Prop :=
  ∀ (s : State) (rest : List Input), s.inputs = .reset :: rest →
    ∃ t, step s = .next t ∧
      (∀ o : BitVec 6, exec (.rd o) t = .next { t with response := some (if o = 0 then 0x13050001 else 0) }) ∧
      t.engine.policy = .design ∧ t.engine.state = .start ∧ t.engine.err = .ok ∧ t.engine.r = 0 ∧ t.engine.s = 0 ∧
      t.engine.acc = 0 ∧ t.engine.lastLen = 0 ∧ t.engine.blkCnt = 0

/-- R42: what the registers hold right after reset. -/
def Obligations.ResetStateReadsAsTheSpecSays : Prop :=
  (∀ o : BitVec 6,
    exec (.rd o) State.reset = .next { State.reset with response := some (if o = 0 then 0x13050001 else 0) }) ∧
  State.reset.engine.r = 0 ∧ State.reset.engine.s = 0 ∧ State.reset.engine.acc = 0 ∧
  State.reset.engine.state = .start ∧ State.reset.engine.err = .ok ∧ State.reset.engine.lastLen = 0 ∧
  State.reset.engine.blkCnt = 0

/-- Every instruction completes in one step, from every state and on all operands, and takes nothing from the bus (60_exceptions.md
R236: "Every command completes in one step"). -/
def Obligations.EveryInstructionCompletes : Prop :=
  ∀ (i : Instr) (s : State), ∃ t, exec i s = .next t ∧ t.inputs = s.inputs

/-- A run in which the host keeps to R54 is never refused, however long. For commands and the accesses R54 admits this is
60_exceptions.md R236 and 20_memory.md R59. The other steps of such a run go on as the model reads or chooses: a step with no input
pending (log 2), a hardware reset (log 10, within 70_reset_and_hazards.md R252), an access outside the window (log 4, from
40_register_access.md R100), and an access of width 0 at BASE or outside the window (log 16). -/
def Obligations.RunsOfAdmittedInputsNeverStop : Prop :=
  ∀ (n : Nat) (s : State), s.hostKeepsR54 → ∃ t : State, Host.Core.run core n s = .next t ∧ t.hostKeepsR54

/-! ## Register access -/

/-- R102: the word each offset reads as, and that a read changes nothing but the word on the bus. The last three clauses are the
rule's corner cases: the tag outside DONE, the accumulator after FINAL, and the clamped key after INIT or CLAMP. -/
def Obligations.ReadsReturnTheMappedWord : Prop :=
  ∀ (s : State) (o : BitVec 6), ∃ v : Word,
    exec (.rd o) s = .next { s with response := some v } ∧
    (4 * o.toNat = 0x00 → v = 0x13050001) ∧
    (4 * o.toNat = 0x04 → v.toNat = s.engine.policy.code.toNat) ∧
    (4 * o.toNat = 0x08 →
      v.toNat = s.engine.state.code.toNat + 16 * s.engine.err.code.toNat + 256 * s.engine.lastLen.toNat) ∧
    (4 * o.toNat = 0x0C → v = 0) ∧
    (4 * o.toNat = 0x10 → v = s.engine.keyLen) ∧
    (4 * o.toNat = 0x14 → v = s.engine.blkLen) ∧
    (4 * o.toNat = 0x18 → v = s.engine.blkCnt) ∧
    (∀ i : Fin 8, 4 * o.toNat = 0x20 + 4 * i.val → v = s.engine.key[i.val]) ∧
    (∀ i : Fin 4, 4 * o.toNat = 0x40 + 4 * i.val → v = s.engine.blk[i.val]) ∧
    (∀ i : Fin 4, 4 * o.toNat = 0x50 + 4 * i.val → v = s.engine.tag[i.val]) ∧
    (∀ i : Fin 4, 4 * o.toNat = 0x60 + 4 * i.val → v.toNat = s.engine.acc.toNat / 2 ^ (32 * i.val) % 2 ^ 32) ∧
    (4 * o.toNat = 0x70 → v.toNat = s.engine.acc.toNat / 2 ^ 128) ∧
    (4 * o.toNat = 0x1C ∨ 0x74 ≤ 4 * o.toNat → v = 0) ∧
    (s.engine.Inv → s.engine.state ≠ .done → 0x50 ≤ 4 * o.toNat → 4 * o.toNat ≤ 0x5C → v = 0) ∧
    (∀ s₀, s₀.engine.Inv → exec .final s₀ = .next s → 0x60 ≤ 4 * o.toNat → 4 * o.toNat ≤ 0x70 → v = 0) ∧
    (∀ s₀, exec .clamp s₀ = .next s ∨ s₀.engine.keyLen = 32 ∧ exec .init s₀ = .next s →
      ∀ i : Fin 4, 4 * o.toNat = 0x20 + 4 * i.val → v = (clampedKey s₀.engine.key)[i.val])

/-- R101: the register each offset writes, the command a CMD write runs, and that every other offset is unchanged by a write. Each
clause gives the whole next state, so it is also the write's frame. -/
def Obligations.WritesStoreByTheMap : Prop :=
  ∀ (s : State) (o : BitVec 6) (v : Word),
    (4 * o.toNat = 0x04 → ∃ p : Policy, p.code.toNat = (if v.toNat % 4 = 3 then s.engine.policy.code.toNat else v.toNat % 4) ∧
      exec (.wr o v) s = .next { s with engine := { s.engine with policy := p } }) ∧
    (4 * o.toNat = 0x0C → (∀ c, decodeCommand v = some c → exec (.wr o v) s = exec c.instr s) ∧
      (decodeCommand v = none →
        exec (.wr o v) s = .next { s with engine := { s.engine with err := .illegalCommand } })) ∧
    (4 * o.toNat = 0x10 → exec (.wr o v) s = .next { s with engine := { s.engine with keyLen := v } }) ∧
    (4 * o.toNat = 0x14 → exec (.wr o v) s = .next { s with engine := { s.engine with blkLen := v } }) ∧
    (∀ i : Fin 8, 4 * o.toNat = 0x20 + 4 * i.val →
      exec (.wr o v) s = .next { s with engine := { s.engine with key := s.engine.key.set i.val v i.isLt } }) ∧
    (∀ i : Fin 4, 4 * o.toNat = 0x40 + 4 * i.val →
      exec (.wr o v) s = .next { s with engine := { s.engine with blk := s.engine.blk.set i.val v i.isLt } }) ∧
    (4 * o.toNat = 0x00 ∨ 4 * o.toNat = 0x08 ∨ 4 * o.toNat = 0x18 ∨ 4 * o.toNat = 0x1C ∨ 0x50 ≤ 4 * o.toNat →
      exec (.wr o v) s = .next s)

/-- R103: a CTRL write takes v[1:0] into POLICY unless it is 3, ignores bits [31:2], and changes nothing else; of the commands only
FINAL reads POLICY, so the effect of every other one on the rest of the engine is the same under every policy. -/
def Obligations.CtrlWriteKeepsALegalPolicy : Prop :=
  (∀ (s : State) (v : Word),
    (v.toNat % 4 = 0 → exec (.wr 1 v) s = .next (withPolicy s .design)) ∧
    (v.toNat % 4 = 1 → exec (.wr 1 v) s = .next (withPolicy s .reference)) ∧
    (v.toNat % 4 = 2 → exec (.wr 1 v) s = .next (withPolicy s .standard)) ∧
    (v.toNat % 4 = 3 → exec (.wr 1 v) s = .next s)) ∧
  (∀ (c : Command) (s t : State) (p : Policy), c ≠ .final → exec c.instr s = .next t →
    exec c.instr (withPolicy s p) = .next (withPolicy t p))

/-- R104: writes to read-only and reserved offsets change nothing; CMD and reserved offsets read as 0; neither touches ERR. -/
def Obligations.ReadOnlyAndReservedOffsets : Prop :=
  ∀ (s : State) (o : BitVec 6) (v : Word),
    (4 * o.toNat = 0x00 ∨ 4 * o.toNat = 0x08 ∨ 4 * o.toNat = 0x18 ∨ 4 * o.toNat = 0x1C ∨ 0x50 ≤ 4 * o.toNat →
      exec (.wr o v) s = .next s) ∧
    (4 * o.toNat = 0x0C ∨ 4 * o.toNat = 0x1C ∨ 0x74 ≤ 4 * o.toNat →
      exec (.rd o) s = .next { s with response := some 0 })

/-- A read-write register other than CTRL reads back the last word written to it, whatever the word (20_memory.md R56; 10_state.md
R30, R31, R33, R34). -/
def Obligations.WrittenWordsReadBack : Prop :=
  ∀ (s : State) (o : BitVec 6) (v w : Word),
    4 * o.toNat = 0x10 ∨ 4 * o.toNat = 0x14 ∨ 0x20 ≤ 4 * o.toNat ∧ 4 * o.toNat < 0x50 →
    ∃ t u, exec (.wr o v) s = .next t ∧ exec (.wr o w) t = .next u ∧ exec (.wr o w) s = .next u ∧
      exec (.rd o) u = .next { u with response := some w }

/-- R40: reserved offsets and the reserved fields of CTRL, STATUS and ACC4 read as 0, and a write to a reserved offset or field
changes no state. -/
def Obligations.ReservedBitsReadAsZero : Prop :=
  ∀ s : State,
    (∃ v : Word, exec (.rd 1) s = .next { s with response := some v } ∧ v.extractLsb' 2 30 = 0) ∧
    (∃ v : Word, exec (.rd 2) s = .next { s with response := some v } ∧ v.extractLsb' 2 2 = 0 ∧ v.extractLsb' 13 19 = 0) ∧
    (∃ v : Word, exec (.rd 28) s = .next { s with response := some v } ∧ v.extractLsb' 2 30 = 0) ∧
    (∀ (o : BitVec 6) (v : Word), 4 * o.toNat = 0x1C ∨ 0x74 ≤ 4 * o.toNat →
      exec (.rd o) s = .next { s with response := some 0 } ∧ exec (.wr o v) s = .next s) ∧
    (∀ v w : Word, v.extractLsb' 0 2 = w.extractLsb' 0 2 → exec (.wr 1 v) s = exec (.wr 1 w) s) ∧
    (∀ v : Word, exec (.wr 2 v) s = .next s ∧ exec (.wr 28 v) s = .next s)

/-- What a host reads of CTRL.POLICY, STATUS.ERR and STATUS.LAST_LEN stays in the legal values of 10_state.md R41 (f), (g), (h). -/
def Obligations.VisibleFieldsStayLegal : Prop :=
  ∀ s : State, s.engine.Inv → ∃ c v : Word,
    exec (.rd 1) s = .next { s with response := some c } ∧ exec (.rd 2) s = .next { s with response := some v } ∧
    c.toNat ≤ 2 ∧ v.toNat / 16 % 16 ≤ 4 ∧ v.toNat / 256 ≤ 16

/-- R and S cannot be read (10_state.md R37, R38; 60_exceptions.md R232): from two states that differ only there, every read returns
the same word. -/
def Obligations.ReadsNeverRevealRAndS : Prop :=
  ∀ (s : State) (o : BitVec 6) (r m : BitVec 128), ∃ t t' : State,
    exec (.rd o) s = .next t ∧ exec (.rd o) { s with engine := { s.engine with r := r, s := m } } = .next t' ∧
    t'.response = t.response

/-! ## CLAMP and INIT -/

/-- R120: CLAMP, command word 1, masks the four r words, sets ERR to OK and changes nothing else, in every STATE; clamping again changes nothing. -/
def Obligations.ClampMasksTheKeyWords : Prop :=
  decodeCommand 0x00000001 = some .clamp ∧
  ∀ s : State, ∃ t,
    exec .clamp s = .next t ∧
    t = { s with engine := { s.engine with key := clampedKey s.engine.key, err := .ok } } ∧
    exec .clamp t = .next t

/-- R121: the clamp byte by byte, on the 128-bit number and on the four words; s is untouched. -/
def Obligations.ClampActsOnTheNamedBytes : Prop :=
  ∀ k : Vector Word 8,
    (∀ i : Nat, i < 16 → (clamp128 (joinWords k[0] k[1] k[2] k[3])).extractLsb' (8 * i) 8 =
      (joinWords k[0] k[1] k[2] k[3]).extractLsb' (8 * i) 8 &&&
        (if i = 3 ∨ i = 7 ∨ i = 11 ∨ i = 15 then 0x0F#8 else if i = 4 ∨ i = 8 ∨ i = 12 then 0xFC#8 else 0xFF#8)) ∧
    wordSum (clampedKey k)[0] (clampedKey k)[1] (clampedKey k)[2] (clampedKey k)[3] =
      (clamp128 (BitVec.ofNat 128 (wordSum k[0] k[1] k[2] k[3]))).toNat ∧
    (∀ e : Engine, e.key = k → e.clampKey = { e with key := clampedKey k })

/-- R122: the clamp is idempotent, bounded, clears exactly the 22 named bits, and its result meets the clamping invariant. -/
def Obligations.ClampProperties : Prop :=
  (∀ v : BitVec 128, clamp128 (clamp128 v) = clamp128 v ∧
    (clamp128 v).toNat ≤ 0x0ffffffc0ffffffc0ffffffc0fffffff ∧ (clamp128 v).toNat < 2 ^ 124 ∧
    (∀ i : Nat, i < 128 → (clamp128 v).getLsbD i = (v.getLsbD i && !clampClears i)) ∧
    (∀ i : Nat, i < 128 → clampClears i = true → (clamp128 v).getLsbD i = false)) ∧
  ((List.range 128).filter clampClears).length = 22 ∧ 2 ^ 124 < P

/-- R123, R124, R125: INIT, command word 2, with KEY_LEN = 32 clamps the key in place, latches R and S, zeroes ACC and enters KEY_READY; with any
other KEY_LEN it leaves the key as it was, aborts to START and reports INVALID_KEY_LENGTH, and STATUS then reads 0x00000010. Each
clause gives the whole next state. -/
def Obligations.InitSetsUpTheKeyOrAborts : Prop :=
  decodeCommand 0x00000002 = some .init ∧
  ∀ s : State,
    (s.engine.keyLen.toNat = 32 → ∃ r : BitVec 128, ∃ m : BitVec 128,
      exec .init s = .next { s with engine := { s.engine with
        key := clampedKey s.engine.key, r := r, s := m, acc := 0, tag := Vector.replicate 4 0, blkCnt := 0, lastLen := 0,
        state := .keyReady, err := .ok } } ∧
      r.toNat = wordSum (s.engine.key[0] &&& 0x0FFFFFFF) (s.engine.key[1] &&& 0x0FFFFFFC) (s.engine.key[2] &&& 0x0FFFFFFC)
        (s.engine.key[3] &&& 0x0FFFFFFC) ∧
      r = clamp128 r ∧
      r = clamp128 (BitVec.ofNat 128 (wordSum s.engine.key[0] s.engine.key[1] s.engine.key[2] s.engine.key[3])) ∧
      m.toNat = wordSum s.engine.key[4] s.engine.key[5] s.engine.key[6] s.engine.key[7]) ∧
    (s.engine.keyLen.toNat ≠ 32 → ∃ t,
      exec .init s = .next t ∧
      t = { s with engine := { s.engine with
        r := 0, s := 0, acc := 0, tag := Vector.replicate 4 0, blkCnt := 0, lastLen := 0,
        state := .start, err := .invalidKeyLength } } ∧
      exec (.rd 2) t = .next { t with response := some 0x00000010 })

/-- Issuing INIT again with no write between gives the same R, S and key, in fact the same engine (41_key_setup.md R126 (c), (d)). -/
def Obligations.RepeatedInitChangesNothing : Prop :=
  ∀ s t : State, exec .init s = .next t → exec .init t = .next t

/-! ## ABSORB -/

/-- R140, R141, R142: ABSORB, command word 3. In a message with BLK_LEN ≤ 16 it makes the exact update of R142, of BLKCNT, LAST_LEN,
STATE and ERR, and of nothing else. In START or DONE it reports SEQUENCE, otherwise with BLK_LEN > 16 INVALID_BLOCK_LENGTH, and then
changes nothing but ERR. -/
def Obligations.AbsorbFoldsTheBlock : Prop :=
  decodeCommand 0x00000003 = some .absorb ∧
  ∀ s : State,
    (inMessage s.engine → s.engine.blkLen.toNat ≤ 16 → ∃ a : BitVec 130, ∃ n l,
      exec .absorb s = .next { s with engine := { s.engine with
        acc := a, blkCnt := n, lastLen := l, state := .folding, err := .ok } } ∧
      a.toNat = (s.engine.acc.toNat + blockNumber s.engine) * s.engine.r.toNat % (2 ^ 130 - 5) ∧
      n.toNat = (s.engine.blkCnt.toNat + 1) % 2 ^ 32 ∧ l.toNat = s.engine.blkLen.toNat) ∧
    (s.engine.state = .start ∨ s.engine.state = .done →
      exec .absorb s = .next { s with engine := { s.engine with err := .sequence } }) ∧
    (inMessage s.engine → 16 < s.engine.blkLen.toNat →
      exec .absorb s = .next { s with engine := { s.engine with err := .invalidBlockLength } })

/-- The bounds of 42_block_accumulation.md R143: no intermediate of ABSORB is truncated, and ACC ends in [0, P). The premise is the
invariant of R41. -/
def Obligations.AbsorbIntermediatesStayBounded : Prop :=
  ∀ s t : State, s.engine.Inv → inMessage s.engine → s.engine.blkLen.toNat ≤ 16 → exec .absorb s = .next t →
    blkSum s.engine < 2 ^ 128 ∧
    2 ^ (8 * s.engine.blkLen.toNat) ≤ blockNumber s.engine ∧
    blockNumber s.engine < 2 ^ (8 * s.engine.blkLen.toNat + 1) ∧
    s.engine.acc.toNat + blockNumber s.engine < 2 ^ 131 ∧
    (s.engine.acc.toNat + blockNumber s.engine) * s.engine.r.toNat < 2 ^ 255 ∧
    t.engine.acc.toNat < P

/-- Bytes l..15 of BLK0..BLK3 take no part in ABSORB, whatever they hold (R142): two blocks that agree in their first l bytes fold
to the same state. -/
def Obligations.AbsorbIgnoresBytesPastTheLength : Prop :=
  ∀ (s t : State) (b : Vector Word 4),
    wordSum b[0] b[1] b[2] b[3] % 2 ^ (8 * s.engine.blkLen.toNat) = blkSum s.engine % 2 ^ (8 * s.engine.blkLen.toNat) →
    exec .absorb s = .next t →
    exec .absorb { s with engine := { s.engine with blk := b } } =
      .next { t with engine := { t.engine with blk := b } }

/-- R144 (a), (d): a zero-length block absorbed from KEY_READY makes ACC equal R; with R = 0 every block leaves ACC = 0. -/
def Obligations.AbsorbCornerValues : Prop :=
  (∀ s : State, s.engine.Inv → s.engine.state = .keyReady → s.engine.blkLen = 0 →
    ∃ t, exec .absorb s = .next t ∧ t.engine.acc.toNat = s.engine.r.toNat) ∧
  (∀ s : State, inMessage s.engine → s.engine.blkLen.toNat ≤ 16 → s.engine.r = 0 →
    ∃ t, exec .absorb s = .next t ∧ t.engine.acc = 0 ∧ t.engine.state = .folding)

/-! ## FINAL -/

/-- R160: FINAL, command word 4, in KEY_READY or FOLDING folds the pad block its policy calls for, writes the tag (ACC + S) mod 2^128, zeroes R, S
and ACC and enters DONE; in START or DONE it reports SEQUENCE and changes nothing else. -/
def Obligations.FinalWritesTheTag : Prop :=
  decodeCommand 0x00000004 = some .final ∧
  ∀ s : State,
    (inMessage s.engine → ∃ tag : Vector Word 4, ∃ n l, ∃ a : Nat,
      exec .final s = .next { s with engine := { s.engine with
        tag := tag, blkCnt := n, lastLen := l, r := 0, s := 0, acc := 0, state := .done, err := .ok } } ∧
      (pads s.engine → a = (s.engine.acc.toNat + 1) * s.engine.r.toNat % (2 ^ 130 - 5) ∧
        n.toNat = (s.engine.blkCnt.toNat + 1) % 2 ^ 32 ∧ l = 0) ∧
      (¬pads s.engine → a = s.engine.acc.toNat ∧ n = s.engine.blkCnt ∧ l = s.engine.lastLen) ∧
      ∀ i : Fin 4, tag[i.val].toNat = (a + s.engine.s.toNat) % 2 ^ 128 / 2 ^ (32 * i.val) % 2 ^ 32) ∧
    (s.engine.state = .start ∨ s.engine.state = .done →
      exec .final s = .next { s with engine := { s.engine with err := .sequence } })

/-- The pad decisions of 43_finalize.md R161: when each policy's FINAL folds a pad block, told by BLKCNT. -/
def Obligations.PadBlockFollowsThePolicy : Prop :=
  ∀ s : State, inMessage s.engine → ∃ t, exec .final s = .next t ∧
    (s.engine.policy = .design →
      t.engine.blkCnt = if s.engine.state = .keyReady then s.engine.blkCnt + 1 else s.engine.blkCnt) ∧
    (s.engine.policy = .reference →
      t.engine.blkCnt = if s.engine.state = .keyReady ∨ s.engine.lastLen.toNat = 16 then s.engine.blkCnt + 1 else s.engine.blkCnt) ∧
    (s.engine.policy = .standard → t.engine.blkCnt = s.engine.blkCnt)

/-- R162: the tag bytes are `le_bytes((ACC + S) mod 2^128, 16)`, with ACC the accumulator after any pad block. -/
def Obligations.TagBytesAreLittleEndian : Prop :=
  ∀ s : State, inMessage s.engine → ∃ t, ∃ a : Nat, exec .final s = .next t ∧
    (pads s.engine → a = (s.engine.acc.toNat + 1) * s.engine.r.toNat % P) ∧
    (¬pads s.engine → a = s.engine.acc.toNat) ∧
    groupBytes t.engine.tag = leBytes ((a + s.engine.s.toNat) % 2 ^ 128) 16

/-- FINAL consumes R, S and ACC (43_finalize.md R163); CTRL and the key and block operands survive; in DONE, ABSORB and FINAL report SEQUENCE. -/
def Obligations.FinalConsumesTheAccumulator : Prop :=
  ∀ s : State, inMessage s.engine → ∃ t, exec .final s = .next t ∧
    t.engine.r = 0 ∧ t.engine.s = 0 ∧ t.engine.acc = 0 ∧ t.engine.state = .done ∧
    t.engine.policy = s.engine.policy ∧ t.engine.keyLen = s.engine.keyLen ∧ t.engine.blkLen = s.engine.blkLen ∧
    t.engine.blk = s.engine.blk ∧ t.engine.key = s.engine.key ∧
    exec .absorb t = .next { t with engine := { t.engine with err := .sequence } } ∧
    exec .final t = .next { t with engine := { t.engine with err := .sequence } }

/-- R164 (c): the tag of the empty message is R + S under DESIGN and REFERENCE, with one block counted, and S under STANDARD. The
premise is the invariant of R41. -/
def Obligations.EmptyMessageTag : Prop :=
  ∀ s : State, s.engine.Inv → s.engine.state = .keyReady → ∃ t, exec .final s = .next t ∧ t.engine.lastLen = 0 ∧
    wordSum t.engine.tag[0] t.engine.tag[1] t.engine.tag[2] t.engine.tag[3] =
      (if s.engine.policy = .standard then s.engine.s.toNat else (s.engine.r.toNat + s.engine.s.toNat) % 2 ^ 128) ∧
    t.engine.blkCnt = if s.engine.policy = .standard then 0 else 1

/-! ## CLEAR, reserved words and errors -/

/-- R180: CLEAR, command word 5, gives every register its reset value but CTRL.POLICY, which it keeps, in every STATE. -/
def Obligations.ClearIsResetExceptPolicy : Prop :=
  decodeCommand 0x00000005 = some .clear ∧
  ∀ s : State, exec .clear s = .next { s with engine := { Engine.reset with policy := s.engine.policy } }

/-- R181: a CMD write of a word outside the opcode map reports ILLEGAL_COMMAND and changes nothing else. -/
def Obligations.ReservedWordsReportIllegalCommand : Prop :=
  ∀ (s : State) (w : Word), w.toNat = 0 ∨ 6 ≤ w.toNat →
    exec (.wr 3 w) s = .next { s with engine := { s.engine with err := .illegalCommand } }

/-- R220, R223: the code every CMD write leaves in ERR, in the order of the checks: decode, then STATE, then length. -/
def Obligations.ErrorCodeOfEveryCommandWord : Prop :=
  ∀ (s : State) (w : Word), ∃ t, exec (.wr 3 w) s = .next t ∧
    t.engine.err =
      (if w.toNat = 0 ∨ 6 ≤ w.toNat then .illegalCommand
       else if (w.toNat = 3 ∨ w.toNat = 4) ∧ (s.engine.state = .start ∨ s.engine.state = .done) then .sequence
       else if w.toNat = 2 ∧ s.engine.keyLen.toNat ≠ 32 then .invalidKeyLength
       else if w.toNat = 3 ∧ 16 < s.engine.blkLen.toNat then .invalidBlockLength
       else .ok)

/-- 60_exceptions.md R221: only a CMD write (or reset) changes ERR; a command that fails changes nothing else, but for INIT, whose failure also
aborts the message in progress. -/
def Obligations.FailingCommandsChangeOnlyErr : Prop :=
  (∀ (s t : State) (o : BitVec 6) (v : Word),
    exec (.rd o) s = .next t ∨ o ≠ 3 ∧ exec (.wr o v) s = .next t → t.engine.err = s.engine.err) ∧
  (∀ (c : Command) (s t : State), exec c.instr s = .next t → t.engine.err ≠ .ok →
    (c ≠ .init → t = { s with engine := { s.engine with err := t.engine.err } }) ∧
    (c = .init → t = { s with engine := { s.engine with
      r := 0, s := 0, acc := 0, tag := Vector.replicate 4 0, blkCnt := 0, lastLen := 0, state := .start,
      err := .invalidKeyLength } }))

/-! ## Whole-machine rules -/

/-- R41 at reset. -/
def Obligations.ResetMeetsTheInvariants : Prop :=
  State.reset.engine.Inv

/-- R41: every step keeps the invariants, from every state that meets them. -/
def Obligations.EveryStepKeepsTheInvariants : Prop :=
  ∀ s t : State, s.engine.Inv → step s = .next t → t.engine.Inv

/-- R39: ABSORB leaves ACC below P from every state in which it succeeds, the invariant not assumed; and no instruction raises ACC
to P or above. -/
def Obligations.AccumulatorStaysReduced : Prop :=
  (∀ s : State, inMessage s.engine → s.engine.blkLen.toNat ≤ 16 → ∃ t, exec .absorb s = .next t ∧ t.engine.acc.toNat < P) ∧
  (∀ (i : Instr) (s t : State), s.engine.acc.toNat < P → exec i s = .next t → t.engine.acc.toNat < P)

/-- How STATE moves (R26): START is entered by CLEAR or a failed INIT, KEY_READY by INIT with KEY_LEN = 32, FOLDING by ABSORB in a
message, DONE by FINAL in a message; nothing else moves it. Over well-formed instructions, so that a command has one name. -/
def Obligations.OnlyCommandsMoveTheState : Prop :=
  ∀ (i : Instr) (s t : State), i.wf = true → exec i s = .next t → t.engine.state ≠ s.engine.state →
    (t.engine.state = .start ∧ (i = .clear ∨ i = .init ∧ s.engine.keyLen.toNat ≠ 32)) ∨
    (t.engine.state = .keyReady ∧ i = .init ∧ s.engine.keyLen.toNat = 32) ∨
    (t.engine.state = .folding ∧ i = .absorb ∧ inMessage s.engine ∧ s.engine.blkLen.toNat ≤ 16) ∨
    (t.engine.state = .done ∧ i = .final ∧ inMessage s.engine)

/-- FINAL is the only command that writes a nonzero tag (43_finalize.md R164 (h)): after any other instruction the tag is what it
was, or 0. -/
def Obligations.OnlyFinalWritesANonzeroTag : Prop :=
  ∀ (i : Instr) (s t : State), i.wf = true → exec i s = .next t → i ≠ .final →
    t.engine.tag = s.engine.tag ∨ t.engine.tag = Vector.replicate 4 0

/-- When the engine itself writes KEY0..KEY7 (10_state.md R33): a successful INIT and CLAMP leave them clamped, CLEAR zeroes them,
and no other command writes them. -/
def Obligations.CommandsWriteTheKeyOnlyToClampOrClear : Prop :=
  ∀ (c : Command) (s t : State), exec c.instr s = .next t →
    t.engine.key =
      (if c = .clear then Vector.replicate 8 0
       else if c = .clamp ∨ c = .init ∧ s.engine.keyLen.toNat = 32 then clampedKey s.engine.key
       else s.engine.key)

/-- R262: the key is latched at INIT. No instruction but INIT lets KEY0..KEY7 reach any other register: from two states that differ
only there, the engines after it differ only there. -/
def Obligations.KeyRegistersReachTheRestOnlyThroughInit : Prop :=
  ∀ (i : Instr) (s t : State) (k : Vector Word 8), i.wf = true → i ≠ .init → exec i s = .next t →
    ∃ t' k', exec i (withKey s k) = .next t' ∧ t'.engine = { t.engine with key := k' }

/-- R264: POLICY is sampled at FINAL. From two states that differ only in POLICY, the engines after any instruction but FINAL
differ only there. -/
def Obligations.PolicyReachesTheRestOnlyThroughFinal : Prop :=
  ∀ (i : Instr) (s t : State) (p : Policy), i.wf = true → i ≠ .final → exec i s = .next t →
    ∃ t' p', exec i (withPolicy s p) = .next t' ∧ t'.engine = { t.engine with policy := p' }

/-! ## The whole message -/

/-- 20_memory.md R52: the number of a register group is `le` of its bytes, and 16 tag bytes come from four words. -/
def Obligations.GroupNumberIsLittleEndianBytes : Prop :=
  ∀ w0 w1 w2 w3 : Word,
    (groupBytes #v[w0, w1, w2, w3]).length = 16 ∧ le (groupBytes #v[w0, w1, w2, w3]) = wordSum w0 w1 w2 w3 ∧
    leBytes (wordSum w0 w1 w2 w3) 16 = groupBytes #v[w0, w1, w2, w3]

/-- 45_message_sequence.md R201: the base partition gives back the message in chunks of 16 bytes and a tail, the chunk counts of the three policies, the
REFERENCE list as the reference code forms it, and that the policies can differ only at a multiple of 16. -/
def Obligations.ChunkListsOfThePolicies : Prop :=
  ∀ m : List Byte,
    (baseChunks m).flatten = m ∧
    (∀ c ∈ baseChunks m, 1 ≤ c.length ∧ c.length ≤ 16) ∧
    (∀ c ∈ (baseChunks m).dropLast, c.length = 16) ∧
    (baseChunks m).length = (m.length + 15) / 16 ∧
    (chunks .design m).length = max 1 ((m.length + 15) / 16) ∧
    (chunks .reference m).length = m.length / 16 + 1 ∧
    (chunks .standard m).length = (m.length + 15) / 16 ∧
    chunks .reference m = (List.range (m.length / 16 + 1)).map (fun i => (m.drop (16 * i)).take 16) ∧
    (m.length % 16 ≠ 0 → chunks .design m = chunks .standard m ∧ chunks .reference m = chunks .standard m)

/-- R203: run the protocol of R202 from any engine state with a 32-byte key. It ends in DONE with ERR = OK, the tag bytes are
Poly1305_pol(m, k), the key registers hold the clamped r and s, and BLKCNT counts the policy's chunks modulo 2^32. -/
def Obligations.ProtocolComputesPoly1305 : Prop :=
  ∀ (s : State) (pol : Policy) (m k : List Byte), k.length = 32 →
    ∃ t : State, Host.Core.run core (protocol pol m k).length (withAccesses s (protocol pol m k)) = .next t ∧
      t.inputs = [] ∧ t.engine.policy = pol ∧ t.engine.state = .done ∧ t.engine.err = .ok ∧
      poly1305 pol m k = .ok (groupBytes t.engine.tag) ∧
      wordSum t.engine.key[0] t.engine.key[1] t.engine.key[2] t.engine.key[3] =
        (clamp128 (BitVec.ofNat 128 (le (k.take 16)))).toNat ∧
      wordSum t.engine.key[4] t.engine.key[5] t.engine.key[6] t.engine.key[7] = le (k.drop 16) ∧
      t.engine.blkCnt.toNat = (chunks pol m).length % 2 ^ 32

/-- The error path of 45_message_sequence.md R204: the same protocol with a key of another length. INIT leaves STATUS = 0x00000010; if the host goes on anyway, ABSORB and
FINAL report SEQUENCE, no tag is produced, and the key registers hold at most the first 32 key bytes, not clamped. The length
fits KEY_LEN, as every length the host can present does (log 14). -/
def Obligations.WrongKeyLengthGivesNoTag : Prop :=
  ∀ (s : State) (pol : Policy) (m k : List Byte), k.length ≠ 32 → k.length < 2 ^ 32 →
    poly1305 pol m k = .error .invalidKeyLength ∧
    (∃ t : State, Host.Core.run core (setPol pol ++ ldKeyN k ++ cmd .init ++ rdStat).length
        (withAccesses s (setPol pol ++ ldKeyN k ++ cmd .init ++ rdStat)) = .next t ∧ t.response = some 0x00000010) ∧
    (∃ t : State, Host.Core.run core (protocol pol m k).length (withAccesses s (protocol pol m k)) = .next t ∧
      t.engine.state = .start ∧ t.engine.err = .sequence ∧ t.engine.tag = Vector.replicate 4 0 ∧ t.engine.blkCnt = 0 ∧
      groupBytes t.engine.key = k.take 32 ++ List.replicate (32 - k.length) 0)
end

