-- ==== Sys2Proof/Laws/Decode.lean ====
section
/-! SUPPORT. What the decoders answer: command words by value, accesses by shape, and an inversion lemma for each. -/

namespace Sys2Proof

/-! ### Command words -/

/-- The opcode map by the word's value. -/
theorem decodeCommand_toNat (w : Word) :
    decodeCommand w =
      if w.toNat = 1 then some .clamp else if w.toNat = 2 then some .init else if w.toNat = 3 then some .absorb
      else if w.toNat = 4 then some .final else if w.toNat = 5 then some .clear else none := by
  have hw := w.isLt
  have hval : (w.extractLsb' 8 24).toNat = w.toNat / 2 ^ 8 % 2 ^ 24 := by
    rw [BitVec.extractLsb'_toNat, Nat.shiftRight_eq_div_pow]
  have hop : (w.extractLsb' 0 8).toNat = w.toNat % 2 ^ 8 := by
    rw [BitVec.extractLsb'_toNat, Nat.shiftRight_zero]
  by_cases hhi : w.extractLsb' 8 24 = 0#24
  · rw [hhi, BitVec.toNat_zero] at hval
    have hlow : w.toNat % 2 ^ 8 = w.toNat := by omega
    rw [hlow] at hop
    simp [decodeCommand, hhi, ← BitVec.toNat_inj, hop]
  · have hbig : 256 ≤ w.toNat := by
      by_contra hlt
      apply hhi
      apply BitVec.eq_of_toNat_eq
      rw [hval, BitVec.toNat_zero]
      omega
    have h1 : w.toNat ≠ 1 := by omega
    have h2 : w.toNat ≠ 2 := by omega
    have h3 : w.toNat ≠ 3 := by omega
    have h4 : w.toNat ≠ 4 := by omega
    have h5 : w.toNat ≠ 5 := by omega
    have hnone : decodeCommand w = none := if_pos hhi
    simp [hnone, h1, h2, h3, h4, h5]

theorem decodeCommand_eq_some_iff (w : Word) (c : Command) : decodeCommand w = some c ↔ w = c.word := by
  rw [decodeCommand_toNat, ← BitVec.toNat_inj]
  cases c <;> simp only [Command.word] <;> split_ifs <;> simp_all

@[simp] theorem decodeCommand_word (c : Command) : decodeCommand c.word = some c :=
  (decodeCommand_eq_some_iff _ _).2 rfl

theorem commandWords_contains_iff (v : Word) : commandWords.contains v = true ↔ ∃ c, decodeCommand v = some c := by
  simp only [decodeCommand_eq_some_iff]
  constructor
  · intro h
    simp only [commandWords, List.contains_iff_mem, List.mem_cons, List.not_mem_nil, or_false] at h
    obtain h | h | h | h | h := h
    exacts [⟨.clamp, h⟩, ⟨.init, h⟩, ⟨.absorb, h⟩, ⟨.final, h⟩, ⟨.clear, h⟩]
  · rintro ⟨c, rfl⟩
    cases c <;> decide

/-! ### Accesses -/

theorem touchesWindow_iff (off : Int) (width : Nat) : touchesWindow off width = true ↔ off < 256 ∧ 0 < off + width := by
  simp [touchesWindow]

theorem admittedShape_iff (off : Int) (width : Nat) : admittedShape off width = true ↔ width = 4 ∧ off % 4 = 0 := by
  simp [admittedShape]

/-- An admitted access to the window is at `4·o` for its word offset `o`. -/
theorem eq_of_admitted {off : Int} {width : Nat} (ht : touchesWindow off width = true) (ha : admittedShape off width = true) :
    width = 4 ∧ off = 4 * (wordOffset off).toNat := by
  rw [touchesWindow_iff] at ht
  rw [admittedShape_iff] at ha
  refine ⟨ha.1, ?_⟩
  rw [wordOffset, BitVec.toNat_ofNat]
  omega

theorem touchesWindow_offset (o : BitVec 6) : touchesWindow (4 * o.toNat) 4 = true := by
  have := o.isLt
  rw [touchesWindow_iff]
  omega

theorem admittedShape_offset (o : BitVec 6) : admittedShape (4 * o.toNat) 4 = true := by
  rw [admittedShape_iff]
  omega

theorem wordOffset_offset (o : BitVec 6) : wordOffset (4 * o.toNat) = o := by
  apply BitVec.eq_of_toNat_eq
  have := o.isLt
  rw [wordOffset, BitVec.toNat_ofNat]
  omega

@[simp] theorem decodeAccess_readOffset (o : BitVec 6) : decodeAccess (.read (4 * o.toNat) 4) = .instr (.rd o) := by
  simp [decodeAccess, touchesWindow_offset, admittedShape_offset, wordOffset_offset]

@[simp] theorem decodeAccess_writeOffset (o : BitVec 6) (v : Word) :
    decodeAccess (.write (4 * o.toNat) 4 v) = .instr (decodeWrite o v) := by
  simp [decodeAccess, touchesWindow_offset, admittedShape_offset, wordOffset_offset]

@[simp] theorem decodeWrite_word (c : Command) : decodeWrite cmdOffset c.word = c.instr := by
  simp [decodeWrite]

/-- What `decodeWrite` can answer: a command whose word was written to CMD, or WR. -/
theorem decodeWrite_cases (o : BitVec 6) (v : Word) :
    (∃ c, o = cmdOffset ∧ v = Command.word c ∧ decodeWrite o v = c.instr) ∨
    ((o = cmdOffset → decodeCommand v = none) ∧ decodeWrite o v = .wr o v) := by
  by_cases ho : o = cmdOffset
  · cases hd : decodeCommand v with
    | none => exact .inr ⟨fun _ => rfl, by simp [decodeWrite, hd]⟩
    | some c => exact .inl ⟨c, ho, (decodeCommand_eq_some_iff _ _).1 hd, by simp [decodeWrite, ho, hd]⟩
  · exact .inr ⟨fun h => absurd h ho, by simp [decodeWrite, ho]⟩

/-- What decodes to an instruction: an aligned word access at an offset of the window. -/
theorem decodeAccess_instr_cases {a : BusAccess} {i : Instr} (h : decodeAccess a = .instr i) :
    (∃ o : BitVec 6, a = .read (4 * o.toNat) 4 ∧ i = .rd o) ∨
    (∃ (o : BitVec 6) (v : Word), a = .write (4 * o.toNat) 4 v ∧ i = decodeWrite o v) := by
  cases a with
  | read off width =>
    simp only [decodeAccess] at h
    split at h
    · split at h
      · rename_i ht ha
        obtain ⟨hw, hoff⟩ := eq_of_admitted ht ha
        refine .inl ⟨wordOffset off, ?_, by simpa using h.symm⟩
        rw [← hoff, hw]
      · cases h
    · cases h
  | write off width v =>
    simp only [decodeAccess] at h
    split at h
    · split at h
      · rename_i ht ha
        obtain ⟨hw, hoff⟩ := eq_of_admitted ht ha
        refine .inr ⟨wordOffset off, v, ?_, by simpa using h.symm⟩
        rw [← hoff, hw]
      · cases h
    · cases h

end Sys2Proof
end

