-- ==== Sys2Proof/Laws/State.lean ====
section
/-! SUPPORT. One lemma per register for each named update of the engine, and the state after an instruction completes.
`Engine.clampKey_key`, the one that is not a record projection, stands in Laws/Ops.lean. -/

namespace Sys2Proof.Machine

open Sys2Proof

/-! ### `Engine.raise` -/

@[simp] theorem Engine.raise_policy (c : ErrorCode) (e : Engine) : (e.raise c).policy = e.policy := rfl
@[simp] theorem Engine.raise_keyLen (c : ErrorCode) (e : Engine) : (e.raise c).keyLen = e.keyLen := rfl
@[simp] theorem Engine.raise_blkLen (c : ErrorCode) (e : Engine) : (e.raise c).blkLen = e.blkLen := rfl
@[simp] theorem Engine.raise_blkCnt (c : ErrorCode) (e : Engine) : (e.raise c).blkCnt = e.blkCnt := rfl
@[simp] theorem Engine.raise_key (c : ErrorCode) (e : Engine) : (e.raise c).key = e.key := rfl
@[simp] theorem Engine.raise_blk (c : ErrorCode) (e : Engine) : (e.raise c).blk = e.blk := rfl
@[simp] theorem Engine.raise_tag (c : ErrorCode) (e : Engine) : (e.raise c).tag = e.tag := rfl
@[simp] theorem Engine.raise_r (c : ErrorCode) (e : Engine) : (e.raise c).r = e.r := rfl
@[simp] theorem Engine.raise_s (c : ErrorCode) (e : Engine) : (e.raise c).s = e.s := rfl
@[simp] theorem Engine.raise_acc (c : ErrorCode) (e : Engine) : (e.raise c).acc = e.acc := rfl
@[simp] theorem Engine.raise_state (c : ErrorCode) (e : Engine) : (e.raise c).state = e.state := rfl
@[simp] theorem Engine.raise_err (c : ErrorCode) (e : Engine) : (e.raise c).err = c := rfl
@[simp] theorem Engine.raise_lastLen (c : ErrorCode) (e : Engine) : (e.raise c).lastLen = e.lastLen := rfl

/-! ### `Engine.abort` -/

@[simp] theorem Engine.abort_policy (e : Engine) : (e.abort).policy = e.policy := rfl
@[simp] theorem Engine.abort_keyLen (e : Engine) : (e.abort).keyLen = e.keyLen := rfl
@[simp] theorem Engine.abort_blkLen (e : Engine) : (e.abort).blkLen = e.blkLen := rfl
@[simp] theorem Engine.abort_blkCnt (e : Engine) : (e.abort).blkCnt = 0 := rfl
@[simp] theorem Engine.abort_key (e : Engine) : (e.abort).key = e.key := rfl
@[simp] theorem Engine.abort_blk (e : Engine) : (e.abort).blk = e.blk := rfl
@[simp] theorem Engine.abort_tag (e : Engine) : (e.abort).tag = Vector.replicate 4 0 := rfl
@[simp] theorem Engine.abort_r (e : Engine) : (e.abort).r = 0 := rfl
@[simp] theorem Engine.abort_s (e : Engine) : (e.abort).s = 0 := rfl
@[simp] theorem Engine.abort_acc (e : Engine) : (e.abort).acc = 0 := rfl
@[simp] theorem Engine.abort_state (e : Engine) : (e.abort).state = .start := rfl
@[simp] theorem Engine.abort_err (e : Engine) : (e.abort).err = e.err := rfl
@[simp] theorem Engine.abort_lastLen (e : Engine) : (e.abort).lastLen = 0 := rfl

/-! ### `Engine.clampKey` -/

@[simp] theorem Engine.clampKey_policy (e : Engine) : (e.clampKey).policy = e.policy := rfl
@[simp] theorem Engine.clampKey_keyLen (e : Engine) : (e.clampKey).keyLen = e.keyLen := rfl
@[simp] theorem Engine.clampKey_blkLen (e : Engine) : (e.clampKey).blkLen = e.blkLen := rfl
@[simp] theorem Engine.clampKey_blkCnt (e : Engine) : (e.clampKey).blkCnt = e.blkCnt := rfl
@[simp] theorem Engine.clampKey_blk (e : Engine) : (e.clampKey).blk = e.blk := rfl
@[simp] theorem Engine.clampKey_tag (e : Engine) : (e.clampKey).tag = e.tag := rfl
@[simp] theorem Engine.clampKey_r (e : Engine) : (e.clampKey).r = e.r := rfl
@[simp] theorem Engine.clampKey_s (e : Engine) : (e.clampKey).s = e.s := rfl
@[simp] theorem Engine.clampKey_acc (e : Engine) : (e.clampKey).acc = e.acc := rfl
@[simp] theorem Engine.clampKey_state (e : Engine) : (e.clampKey).state = e.state := rfl
@[simp] theorem Engine.clampKey_err (e : Engine) : (e.clampKey).err = e.err := rfl
@[simp] theorem Engine.clampKey_lastLen (e : Engine) : (e.clampKey).lastLen = e.lastLen := rfl

/-! ### `Engine.clamp` -/

@[simp] theorem Engine.clamp_policy (e : Engine) : (e.clamp).policy = e.policy := rfl
@[simp] theorem Engine.clamp_keyLen (e : Engine) : (e.clamp).keyLen = e.keyLen := rfl
@[simp] theorem Engine.clamp_blkLen (e : Engine) : (e.clamp).blkLen = e.blkLen := rfl
@[simp] theorem Engine.clamp_blkCnt (e : Engine) : (e.clamp).blkCnt = e.blkCnt := rfl
@[simp] theorem Engine.clamp_key (e : Engine) : (e.clamp).key = e.clampKey.key := rfl
@[simp] theorem Engine.clamp_blk (e : Engine) : (e.clamp).blk = e.blk := rfl
@[simp] theorem Engine.clamp_tag (e : Engine) : (e.clamp).tag = e.tag := rfl
@[simp] theorem Engine.clamp_r (e : Engine) : (e.clamp).r = e.r := rfl
@[simp] theorem Engine.clamp_s (e : Engine) : (e.clamp).s = e.s := rfl
@[simp] theorem Engine.clamp_acc (e : Engine) : (e.clamp).acc = e.acc := rfl
@[simp] theorem Engine.clamp_state (e : Engine) : (e.clamp).state = e.state := rfl
@[simp] theorem Engine.clamp_err (e : Engine) : (e.clamp).err = .ok := rfl
@[simp] theorem Engine.clamp_lastLen (e : Engine) : (e.clamp).lastLen = e.lastLen := rfl

/-! ### `Engine.latchKey` -/

@[simp] theorem Engine.latchKey_policy (e : Engine) : (e.latchKey).policy = e.policy := rfl
@[simp] theorem Engine.latchKey_keyLen (e : Engine) : (e.latchKey).keyLen = e.keyLen := rfl
@[simp] theorem Engine.latchKey_blkLen (e : Engine) : (e.latchKey).blkLen = e.blkLen := rfl
@[simp] theorem Engine.latchKey_blkCnt (e : Engine) : (e.latchKey).blkCnt = e.blkCnt := rfl
@[simp] theorem Engine.latchKey_key (e : Engine) : (e.latchKey).key = e.clampKey.key := rfl
@[simp] theorem Engine.latchKey_blk (e : Engine) : (e.latchKey).blk = e.blk := rfl
@[simp] theorem Engine.latchKey_tag (e : Engine) : (e.latchKey).tag = e.tag := rfl
@[simp] theorem Engine.latchKey_r (e : Engine) : (e.latchKey).r = e.clampKey.rRaw := rfl
@[simp] theorem Engine.latchKey_s (e : Engine) : (e.latchKey).s = e.clampKey.sRaw := rfl
@[simp] theorem Engine.latchKey_acc (e : Engine) : (e.latchKey).acc = e.acc := rfl
@[simp] theorem Engine.latchKey_state (e : Engine) : (e.latchKey).state = .keyReady := rfl
@[simp] theorem Engine.latchKey_err (e : Engine) : (e.latchKey).err = .ok := rfl
@[simp] theorem Engine.latchKey_lastLen (e : Engine) : (e.latchKey).lastLen = e.lastLen := rfl

/-! ### `Engine.foldIn` -/

@[simp] theorem Engine.foldIn_policy (l n : Nat) (e : Engine) : (e.foldIn l n).policy = e.policy := rfl
@[simp] theorem Engine.foldIn_keyLen (l n : Nat) (e : Engine) : (e.foldIn l n).keyLen = e.keyLen := rfl
@[simp] theorem Engine.foldIn_blkLen (l n : Nat) (e : Engine) : (e.foldIn l n).blkLen = e.blkLen := rfl
@[simp] theorem Engine.foldIn_blkCnt (l n : Nat) (e : Engine) : (e.foldIn l n).blkCnt = e.blkCnt + 1 := rfl
@[simp] theorem Engine.foldIn_key (l n : Nat) (e : Engine) : (e.foldIn l n).key = e.key := rfl
@[simp] theorem Engine.foldIn_blk (l n : Nat) (e : Engine) : (e.foldIn l n).blk = e.blk := rfl
@[simp] theorem Engine.foldIn_tag (l n : Nat) (e : Engine) : (e.foldIn l n).tag = e.tag := rfl
@[simp] theorem Engine.foldIn_r (l n : Nat) (e : Engine) : (e.foldIn l n).r = e.r := rfl
@[simp] theorem Engine.foldIn_s (l n : Nat) (e : Engine) : (e.foldIn l n).s = e.s := rfl
@[simp] theorem Engine.foldIn_acc (l n : Nat) (e : Engine) : (e.foldIn l n).acc = foldBlock e.acc e.r n := rfl
@[simp] theorem Engine.foldIn_state (l n : Nat) (e : Engine) : (e.foldIn l n).state = e.state := rfl
@[simp] theorem Engine.foldIn_err (l n : Nat) (e : Engine) : (e.foldIn l n).err = e.err := rfl
@[simp] theorem Engine.foldIn_lastLen (l n : Nat) (e : Engine) : (e.foldIn l n).lastLen = BitVec.ofNat 5 l := rfl

/-! ### `Engine.writeTag` -/

@[simp] theorem Engine.writeTag_policy (e : Engine) : (e.writeTag).policy = e.policy := rfl
@[simp] theorem Engine.writeTag_keyLen (e : Engine) : (e.writeTag).keyLen = e.keyLen := rfl
@[simp] theorem Engine.writeTag_blkLen (e : Engine) : (e.writeTag).blkLen = e.blkLen := rfl
@[simp] theorem Engine.writeTag_blkCnt (e : Engine) : (e.writeTag).blkCnt = e.blkCnt := rfl
@[simp] theorem Engine.writeTag_key (e : Engine) : (e.writeTag).key = e.key := rfl
@[simp] theorem Engine.writeTag_blk (e : Engine) : (e.writeTag).blk = e.blk := rfl
@[simp] theorem Engine.writeTag_tag (e : Engine) : (e.writeTag).tag = splitWords (tagSum e.acc e.s) := rfl
@[simp] theorem Engine.writeTag_r (e : Engine) : (e.writeTag).r = 0 := rfl
@[simp] theorem Engine.writeTag_s (e : Engine) : (e.writeTag).s = 0 := rfl
@[simp] theorem Engine.writeTag_acc (e : Engine) : (e.writeTag).acc = 0 := rfl
@[simp] theorem Engine.writeTag_state (e : Engine) : (e.writeTag).state = .done := rfl
@[simp] theorem Engine.writeTag_err (e : Engine) : (e.writeTag).err = .ok := rfl
@[simp] theorem Engine.writeTag_lastLen (e : Engine) : (e.writeTag).lastLen = e.lastLen := rfl

/-! ### `Engine.clear` -/

@[simp] theorem Engine.clear_policy (e : Engine) : (e.clear).policy = e.policy := rfl
@[simp] theorem Engine.clear_keyLen (e : Engine) : (e.clear).keyLen = 0 := rfl
@[simp] theorem Engine.clear_blkLen (e : Engine) : (e.clear).blkLen = 0 := rfl
@[simp] theorem Engine.clear_blkCnt (e : Engine) : (e.clear).blkCnt = 0 := rfl
@[simp] theorem Engine.clear_key (e : Engine) : (e.clear).key = Vector.replicate 8 0 := rfl
@[simp] theorem Engine.clear_blk (e : Engine) : (e.clear).blk = Vector.replicate 4 0 := rfl
@[simp] theorem Engine.clear_tag (e : Engine) : (e.clear).tag = Vector.replicate 4 0 := rfl
@[simp] theorem Engine.clear_r (e : Engine) : (e.clear).r = 0 := rfl
@[simp] theorem Engine.clear_s (e : Engine) : (e.clear).s = 0 := rfl
@[simp] theorem Engine.clear_acc (e : Engine) : (e.clear).acc = 0 := rfl
@[simp] theorem Engine.clear_state (e : Engine) : (e.clear).state = .start := rfl
@[simp] theorem Engine.clear_err (e : Engine) : (e.clear).err = .ok := rfl
@[simp] theorem Engine.clear_lastLen (e : Engine) : (e.clear).lastLen = 0 := rfl

/-! ### `Engine.illegal` -/

@[simp] theorem Engine.illegal_policy (e : Engine) : (e.illegal).policy = e.policy := rfl
@[simp] theorem Engine.illegal_keyLen (e : Engine) : (e.illegal).keyLen = e.keyLen := rfl
@[simp] theorem Engine.illegal_blkLen (e : Engine) : (e.illegal).blkLen = e.blkLen := rfl
@[simp] theorem Engine.illegal_blkCnt (e : Engine) : (e.illegal).blkCnt = e.blkCnt := rfl
@[simp] theorem Engine.illegal_key (e : Engine) : (e.illegal).key = e.key := rfl
@[simp] theorem Engine.illegal_blk (e : Engine) : (e.illegal).blk = e.blk := rfl
@[simp] theorem Engine.illegal_tag (e : Engine) : (e.illegal).tag = e.tag := rfl
@[simp] theorem Engine.illegal_r (e : Engine) : (e.illegal).r = e.r := rfl
@[simp] theorem Engine.illegal_s (e : Engine) : (e.illegal).s = e.s := rfl
@[simp] theorem Engine.illegal_acc (e : Engine) : (e.illegal).acc = e.acc := rfl
@[simp] theorem Engine.illegal_state (e : Engine) : (e.illegal).state = e.state := rfl
@[simp] theorem Engine.illegal_err (e : Engine) : (e.illegal).err = .illegalCommand := rfl
@[simp] theorem Engine.illegal_lastLen (e : Engine) : (e.illegal).lastLen = e.lastLen := rfl

/-! ### `State.complete` -/

theorem State.complete_eq (f : Engine → Engine) (s : State) : s.complete f = .next { s with engine := f s.engine } := rfl

theorem State.complete_next {f : Engine → Engine} {s t : State} (h : s.complete f = .next t) :
    t = { s with engine := f s.engine } := by
  cases h; rfl

end Sys2Proof.Machine
end

