-- ==== Sys2Proof/Laws/Ops.lean ====
section
/-! SUPPORT. What each shared operation gives: operand assembly, the clamp, folding, the tag words, the register map. -/

namespace Sys2Proof.Machine

open Sys2Proof

/-! ### Operand assembly -/

theorem joinWords_toNat (w0 w1 w2 w3 : Word) :
    (joinWords w0 w1 w2 w3).toNat = w0.toNat + w1.toNat * 2 ^ 32 + w2.toNat * 2 ^ 64 + w3.toNat * 2 ^ 96 := by
  have := w0.isLt; have := w1.isLt; have := w2.isLt; have := w3.isLt
  rw [joinWords, BitVec.toNat_ofNat, Nat.mod_eq_of_lt (by omega)]

/-- The words of a 128-bit number, the most significant first in the concatenation. -/
theorem joinWords_eq_append (w0 w1 w2 w3 : Word) : joinWords w0 w1 w2 w3 = w3 ++ w2 ++ w1 ++ w0 := by
  apply BitVec.eq_of_toNat_eq
  have := w0.isLt; have := w1.isLt; have := w2.isLt; have := w3.isLt
  simp only [joinWords_toNat, BitVec.toNat_append]
  rw [← Nat.shiftLeft_add_eq_or_of_lt (by assumption), ← Nat.shiftLeft_add_eq_or_of_lt (by assumption),
    ← Nat.shiftLeft_add_eq_or_of_lt (by assumption)]
  simp only [Nat.shiftLeft_eq]
  omega

theorem splitWords_get (t : BitVec 128) (i : Fin 4) : (splitWords t)[i.val].toNat = t.toNat / 2 ^ (32 * i.val) % 2 ^ 32 := by
  obtain ⟨i, hi⟩ := i
  interval_cases i <;> simp [splitWords, BitVec.extractLsb'_toNat, Nat.shiftRight_eq_div_pow]

/-- Splitting a 128-bit number into words and joining them gives it back. -/
theorem joinWords_splitWords (t : BitVec 128) :
    joinWords (splitWords t)[0] (splitWords t)[1] (splitWords t)[2] (splitWords t)[3] = t := by
  apply BitVec.eq_of_toNat_eq
  rw [joinWords_toNat]
  have := t.isLt
  simp only [splitWords, Vector.getElem_mk, List.getElem_toArray, List.getElem_cons_zero, List.getElem_cons_succ,
    BitVec.extractLsb'_toNat, Nat.shiftRight_eq_div_pow]
  omega

/-! ### The clamp -/

theorem Engine.clampKey_key (e : Engine) :
    e.clampKey.key = #v[e.key[0] &&& clampMask0, e.key[1] &&& clampMask, e.key[2] &&& clampMask, e.key[3] &&& clampMask,
      e.key[4], e.key[5], e.key[6], e.key[7]] := by
  ext i hi
  interval_cases i <;> simp [Engine.clampKey]

theorem clamp128_joinWords (w0 w1 w2 w3 : Word) :
    joinWords (w0 &&& clampMask0) (w1 &&& clampMask) (w2 &&& clampMask) (w3 &&& clampMask) =
      clamp128 (joinWords w0 w1 w2 w3) := by
  have mask : (0x0ffffffc0ffffffc0ffffffc0fffffff : BitVec 128) = clampMask ++ clampMask ++ clampMask ++ clampMask0 := by decide
  rw [joinWords_eq_append, joinWords_eq_append, clamp128, mask, BitVec.and_append, BitVec.and_append, BitVec.and_append]

theorem clamp128_clamp128 (v : BitVec 128) : clamp128 (clamp128 v) = clamp128 v := by
  rw [clamp128, clamp128, BitVec.and_assoc, BitVec.and_self]

theorem clamp128_le (v : BitVec 128) : (clamp128 v).toNat ≤ 0x0ffffffc0ffffffc0ffffffc0fffffff := by
  rw [clamp128, BitVec.toNat_and]
  exact Nat.and_le_right

theorem Engine.rRaw_clampKey (e : Engine) : e.clampKey.rRaw = clamp128 e.rRaw := by
  simp [Engine.rRaw, Engine.clampKey_key, clamp128_joinWords]

theorem Engine.sRaw_clampKey (e : Engine) : e.clampKey.sRaw = e.sRaw := by
  simp [Engine.sRaw, Engine.clampKey_key]

/-- Clamping a clamped key changes nothing. -/
theorem Engine.clampKey_clampKey (e : Engine) : e.clampKey.clampKey = e.clampKey := by
  have h : e.clampKey.clampKey.key = e.clampKey.key := by
    rw [Engine.clampKey_key, Engine.clampKey_key]
    simp [BitVec.and_assoc]
  calc e.clampKey.clampKey = { e.clampKey with key := e.clampKey.clampKey.key } := rfl
    _ = e.clampKey := by rw [h]

/-! ### Folding and the tag -/

theorem P_pos : 0 < P := by decide

theorem foldBlock_toNat (acc : BitVec 130) (r : BitVec 128) (n : Nat) :
    (foldBlock acc r n).toNat = (acc.toNat + n) * r.toNat % P := by
  have h : (acc.toNat + n) * r.toNat % P < P := Nat.mod_lt _ P_pos
  rw [foldBlock, BitVec.toNat_ofNat, Nat.mod_eq_of_lt (Nat.lt_trans h (by decide))]

theorem foldBlock_lt (acc : BitVec 130) (r : BitVec 128) (n : Nat) : (foldBlock acc r n).toNat < P := by
  rw [foldBlock_toNat]
  exact Nat.mod_lt _ P_pos

theorem tagSum_toNat (acc : BitVec 130) (s : BitVec 128) : (tagSum acc s).toNat = (acc.toNat + s.toNat) % 2 ^ 128 := by
  rw [tagSum, BitVec.toNat_ofNat]

/-! ### The register map -/

/-- A property of the register at `o`, from its value at each of the 64 offsets. -/
theorem forall_offset {p : BitVec 6 → Prop} (h : ∀ i : Fin 64, p (BitVec.ofFin i)) (o : BitVec 6) : p o := by
  have := h o.toFin
  simpa using this

/-! ### Lifecycle -/

theorem Lifecycle.inMessage_iff (x : Lifecycle) : x.inMessage = true ↔ x = .keyReady ∨ x = .folding := by
  cases x <;> simp [Lifecycle.inMessage]

theorem Lifecycle.not_inMessage_iff (x : Lifecycle) : x.inMessage = false ↔ x = .start ∨ x = .done := by
  cases x <;> simp [Lifecycle.inMessage]

theorem padNeeded_iff (e : Engine) :
    padNeeded e = true ↔
      e.policy = .design ∧ e.state = .keyReady ∨
      e.policy = .reference ∧ (e.state = .keyReady ∨ e.lastLen = 16) := by
  unfold padNeeded
  cases h : e.policy <;> simp

end Sys2Proof.Machine
end

