-- ==== Sys2Proof/Laws/Commands.lean ====
section
/-! SUPPORT. What each command can do to the engine, said once: one case lemma per command, and what any instruction can do. -/

namespace Sys2Proof.Machine

open Sys2Proof

/-! ### The commands -/

/-- INIT has two outcomes. -/
theorem Engine.init_cases (e : Engine) :
    (e.keyLen.toNat = 32 ∧ e.init = e.abort.latchKey) ∨
    (e.keyLen.toNat ≠ 32 ∧ e.init = e.abort.raise .invalidKeyLength) := by
  by_cases h : e.keyLen = 32
  · exact .inl ⟨by simp [h], if_neg (not_not.2 h)⟩
  · exact .inr ⟨fun h' => h (BitVec.eq_of_toNat_eq h'), if_pos h⟩

/-- ABSORB has three outcomes, in the order of its checks. -/
theorem Engine.absorb_cases (e : Engine) :
    ((e.state = .start ∨ e.state = .done) ∧ e.absorb = e.raise .sequence) ∨
    ((e.state = .keyReady ∨ e.state = .folding) ∧ 16 < e.blkLen.toNat ∧ e.absorb = e.raise .invalidBlockLength) ∨
    ((e.state = .keyReady ∨ e.state = .folding) ∧ e.blkLen.toNat ≤ 16 ∧
      e.absorb = { e.foldIn e.blkLen.toNat (blockValue e.blkLen.toNat e.blkRaw) with state := .folding, err := .ok }) := by
  cases hs : e.state.inMessage
  · exact .inl ⟨(Lifecycle.not_inMessage_iff _).1 hs, by simp [Engine.absorb, hs]⟩
  · have hm := (Lifecycle.inMessage_iff _).1 hs
    by_cases hl : 16 < e.blkLen.toNat
    · exact .inr (.inl ⟨hm, hl, by simp [Engine.absorb, hs, hl]⟩)
    · exact .inr (.inr ⟨hm, by omega, by simp [Engine.absorb, hs, hl]⟩)

/-- FINAL has three outcomes: SEQUENCE, a tag after a pad block, a tag without one. -/
theorem Engine.final_cases (e : Engine) :
    ((e.state = .start ∨ e.state = .done) ∧ e.final = e.raise .sequence) ∨
    ((e.state = .keyReady ∨ e.state = .folding) ∧ padNeeded e = true ∧ e.final = (e.foldIn 0 1).writeTag) ∨
    ((e.state = .keyReady ∨ e.state = .folding) ∧ padNeeded e = false ∧ e.final = e.writeTag) := by
  cases hs : e.state.inMessage
  · exact .inl ⟨(Lifecycle.not_inMessage_iff _).1 hs, by simp [Engine.final, hs]⟩
  · have hm := (Lifecycle.inMessage_iff _).1 hs
    cases hp : padNeeded e
    · exact .inr (.inr ⟨hm, rfl, by simp [Engine.final, Engine.pad, hs, hp]⟩)
    · exact .inr (.inl ⟨hm, rfl, by simp [Engine.final, Engine.pad, hs, hp]⟩)

/-- A write has one of these effects. -/
theorem writeReg_cases (g : Reg) (v : Word) (e : Engine) :
    writeReg g v e = e ∨
    writeReg g v e = { e with policy := writeCtrl e.policy v } ∨
    writeReg g v e = { e with keyLen := v } ∨
    writeReg g v e = { e with blkLen := v } ∨
    (∃ i : Fin 8, writeReg g v e = { e with key := e.key.set i.val v i.isLt }) ∨
    (∃ i : Fin 4, writeReg g v e = { e with blk := e.blk.set i.val v i.isLt }) ∨
    (∃ c, g = .cmd ∧ decodeCommand v = some c ∧ writeReg g v e = e.command c) ∨
    (g = .cmd ∧ decodeCommand v = none ∧ writeReg g v e = e.illegal) := by
  cases g with
  | cmd =>
    cases hd : decodeCommand v with
    | none => simp [writeReg, Engine.commandWord, hd]
    | some c => simp [writeReg, Engine.commandWord, hd]
  | key i => exact .inr (.inr (.inr (.inr (.inl ⟨i, rfl⟩))))
  | blk i => exact .inr (.inr (.inr (.inr (.inr (.inl ⟨i, rfl⟩)))))
  | _ => simp [writeReg]

/-! ### The register map at CMD -/

@[simp] theorem regAt_cmdOffset : regAt cmdOffset = .cmd := by decide

theorem regAt_eq_cmd (o : BitVec 6) : regAt o = .cmd → o = cmdOffset := by
  revert o
  exact forall_offset (by decide)

/-! ### Any instruction -/

/-- The effect of an instruction on the engine. -/
def Engine.effect : Instr → Engine → Engine
  | .clamp, e => e.clamp
  | .init, e => e.init
  | .absorb, e => e.absorb
  | .final, e => e.final
  | .clear, e => e.clear
  | .wr o v, e => writeReg (regAt o) v e
  | .rd _, e => e

/-- What any instruction gives: its effect on the engine, the inputs as they were, and the word of a read. -/
theorem exec_eq (i : Instr) (s : State) :
    ∃ r, exec i s = .next { engine := s.engine.effect i, inputs := s.inputs, response := r } := by
  cases i <;> exact ⟨_, rfl⟩

theorem exec_engine {i : Instr} {s t : State} (h : exec i s = .next t) : t.engine = s.engine.effect i := by
  obtain ⟨r, hr⟩ := exec_eq i s
  rw [hr] at h
  cases h
  rfl

/-- A command's meaning, by its constructor. -/
theorem exec_command (c : Command) (s : State) : exec c.instr s = .next { s with engine := s.engine.command c } := by
  cases c <;> rfl

theorem exec_wr (o : BitVec 6) (v : Word) (s : State) :
    exec (.wr o v) s = .next { s with engine := writeReg (regAt o) v s.engine } := rfl

theorem exec_rd (o : BitVec 6) (s : State) :
    exec (.rd o) s = .next { s with response := some (readReg (regAt o) s.engine) } := rfl

/-- Writing a command's word to CMD is the command: `wr` is its second spelling. -/
theorem exec_wr_word (c : Command) (s : State) : exec (.wr cmdOffset c.word) s = exec c.instr s := by
  rw [exec_command, exec_wr, regAt_cmdOffset]
  simp [writeReg, Engine.commandWord]

/-- Whatever name decoding gives a write, it does what WR at that offset does. -/
theorem exec_decodeWrite (o : BitVec 6) (v : Word) (s : State) : exec (decodeWrite o v) s = exec (.wr o v) s := by
  obtain ⟨c, rfl, rfl, h⟩ | ⟨-, h⟩ := decodeWrite_cases o v
  · rw [h, exec_wr_word]
  · rw [h]

/-- A well-formed write is not a command. -/
theorem Instr.wf_wr {o : BitVec 6} {v : Word} (h : (Instr.wr o v).wf = true) (hg : regAt o = .cmd) : decodeCommand v = none := by
  have ho := regAt_eq_cmd o hg
  subst ho
  simp only [Instr.wf, beq_self_eq_true, Bool.true_and, Bool.not_eq_true'] at h
  cases hd : decodeCommand v with
  | none => rfl
  | some c =>
    rw [(commandWords_contains_iff v).2 ⟨c, hd⟩] at h
    cases h

end Sys2Proof.Machine
end

