-- ==== Sys2Proof/Laws/PerInstr.lean ====
section
/-! SUPPORT. The family EncodeAligned: every instruction, well formed or not, is delivered by one aligned 32-bit access to the window. -/

namespace Sys2Proof.Laws.EncodeAligned

open Sys2Proof

/-- The offset and the width of an access. -/
def shape : BusAccess → Int × Nat
  | .read off width => (off, width)
  | .write off width _ => (off, width)

/-- The instruction's encoding is an access that R54 admits, to a byte of the window. -/
def Statement (i : Instr) : Prop :=
  touchesWindow (shape (encode i)).1 (shape (encode i)).2 = true ∧ admittedShape (shape (encode i)).1 (shape (encode i)).2 = true

theorem clamp : Statement .clamp := ⟨by decide, by decide⟩

theorem init : Statement .init := ⟨by decide, by decide⟩

theorem absorb : Statement .absorb := ⟨by decide, by decide⟩

theorem final : Statement .final := ⟨by decide, by decide⟩

theorem clear : Statement .clear := ⟨by decide, by decide⟩

theorem wr (o : BitVec 6) (v : Word) : Statement (.wr o v) := ⟨touchesWindow_offset o, admittedShape_offset o⟩

theorem rd (o : BitVec 6) : Statement (.rd o) := ⟨touchesWindow_offset o, admittedShape_offset o⟩

end Sys2Proof.Laws.EncodeAligned
end

