-- ==== Sys2Proof/Laws/Step.lean ====
section
/-! SUPPORT. What a step can do, said once: waiting, a reset, an access outside the window, or an instruction. -/

namespace Sys2Proof.Machine

open Sys2Proof

theorem serve_instr {a : BusAccess} {i : Instr} (h : decodeAccess a = .instr i) (s : State) : serve a s = exec i s := by
  simp [serve, h]

theorem step_cons_access (s : State) (a : BusAccess) (rest : List Input) :
    step { s with inputs := .access a :: rest } = serve a { s with inputs := rest, response := none } := rfl

/-- Everything a step that answers a next state can have done. -/
theorem step_cases {s t : State} (h : step s = .next t) :
    (s.inputs = [] ∧ t = s) ∨
    (∃ rest, s.inputs = .reset :: rest ∧ t = { engine := Engine.reset, inputs := rest, response := none }) ∨
    (∃ a rest, s.inputs = .access a :: rest ∧ decodeAccess a = .outside ∧ t = { s with inputs := rest, response := none }) ∨
    (∃ a rest i, s.inputs = .access a :: rest ∧ decodeAccess a = .instr i ∧
      exec i { s with inputs := rest, response := none } = .next t) := by
  unfold step at h
  split at h
  · rename_i hi
    exact .inl ⟨hi, by cases h; rfl⟩
  · rename_i rest hi
    exact .inr (.inl ⟨rest, hi, by cases h; rfl⟩)
  · rename_i a rest hi
    simp only [serve] at h
    split at h
    · rename_i hd
      exact .inr (.inr (.inl ⟨a, rest, hi, hd, by cases h; rfl⟩))
    · cases h
    · rename_i i hd
      exact .inr (.inr (.inr ⟨a, rest, i, hi, hd, h⟩))

/-- The engine after a step: as it was, reset, or the effect of one instruction. -/
theorem step_engine {s t : State} (h : step s = .next t) :
    t.engine = s.engine ∨ t.engine = Engine.reset ∨ ∃ i, t.engine = s.engine.effect i := by
  obtain ⟨-, rfl⟩ | ⟨rest, -, rfl⟩ | ⟨a, rest, -, -, rfl⟩ | ⟨a, rest, i, -, -, he⟩ := step_cases h
  · exact .inl rfl
  · exact .inr (.inl rfl)
  · exact .inl rfl
  · exact .inr (.inr ⟨i, by rw [exec_engine he]⟩)

/-- What a register property needs so that every step keeps it. -/
theorem step_preserves {p : Engine → Prop} (hreset : p Engine.reset) (heffect : ∀ i e, p e → p (e.effect i))
    {s t : State} (hs : p s.engine) (h : step s = .next t) : p t.engine := by
  obtain he | he | ⟨i, he⟩ := step_engine h <;> rw [he]
  exacts [hs, hreset, heffect i _ hs]

end Sys2Proof.Machine
end

