-- ==== Sys2Proof/Laws/Protocol.lean ====
section
/-! SUPPORT. Runs of host accesses as functions on the engine, what each pseudo-instruction does, and the arithmetic of byte strings. -/

namespace Sys2Proof.Machine

open Sys2Proof

/-! ### Runs -/

theorem run_zero (s : State) : Host.Core.run core 0 s = .next s := rfl

theorem run_succ {n : Nat} {s t : State} (h : step s = .next t) : Host.Core.run core (n + 1) s = Host.Core.run core n t := by
  have e : core.step s = .next t := h
  have := Host.Core.run.eq_2 core s n
  rw [e] at this
  exact this

/-- The effect of an access on the engine, where it is served. -/
def Engine.access (a : BusAccess) (e : Engine) : Engine :=
  match decodeAccess a with
  | .instr i => e.effect i
  | .outside => e
  | .unsupported => e

/-- The effect of a list of accesses, in order. -/
def Engine.accesses (as : List BusAccess) (e : Engine) : Engine := as.foldl (fun e a => e.access a) e

@[simp] theorem Engine.accesses_nil (e : Engine) : e.accesses [] = e := rfl

@[simp] theorem Engine.accesses_cons (a : BusAccess) (as : List BusAccess) (e : Engine) :
    e.accesses (a :: as) = (e.access a).accesses as := rfl

theorem Engine.accesses_append (as bs : List BusAccess) (e : Engine) :
    e.accesses (as ++ bs) = (e.accesses as).accesses bs := List.foldl_append

/-- A run that serves exactly the accesses `as`, all of them admitted. -/
theorem run_accesses {as : List BusAccess} (h : ∀ a ∈ as, decodeAccess a ≠ .unsupported) (s : State) (rest : List Input)
    (hs : s.inputs = as.map .access ++ rest) :
    ∃ t : State, Host.Core.run core as.length s = .next t ∧ t.engine = s.engine.accesses as ∧ t.inputs = rest := by
  induction as generalizing s with
  | nil => exact ⟨s, rfl, rfl, by simpa using hs⟩
  | cons a as ih =>
    have hstep : ∃ t : State, step s = .next t ∧ t.engine = s.engine.access a ∧ t.inputs = as.map .access ++ rest := by
      simp only [List.map_cons, List.cons_append] at hs
      simp only [step, hs, serve, Engine.access]
      cases hd : decodeAccess a with
      | outside => exact ⟨_, rfl, rfl, rfl⟩
      | unsupported => exact absurd hd (h a (List.mem_cons_self ..))
      | instr i =>
        obtain ⟨r, hr⟩ := exec_eq i { s with inputs := as.map .access ++ rest, response := none }
        exact ⟨_, hr, rfl, rfl⟩
    obtain ⟨t, ht, hte, hti⟩ := hstep
    obtain ⟨u, hu, hue, hui⟩ := ih (fun a ha => h a (List.mem_cons_of_mem _ ha)) t hti
    refine ⟨u, (run_succ ht).trans hu, ?_, hui⟩
    rw [hue, hte, Engine.accesses_cons]

/-- The effect of the decoded write is the register write, under either name. -/
theorem Engine.effect_decodeWrite (o : BitVec 6) (v : Word) (e : Engine) : e.effect (decodeWrite o v) = writeReg (regAt o) v e := by
  have h := exec_decodeWrite o v { engine := e, inputs := [], response := none }
  obtain ⟨r, hr⟩ := exec_eq (decodeWrite o v) { engine := e, inputs := [], response := none }
  rw [hr, exec_wr] at h
  injection h with h
  exact congrArg State.engine h

/-- `WR` at an offset of the map, by the register there. -/
theorem Engine.access_wrAt (off : Nat) (g : Reg) (h : off < 256 ∧ off % 4 = 0 ∧ regAt (BitVec.ofNat 6 (off / 4)) = g) (v : Word)
    (e : Engine) : e.access (wrAt off v) = writeReg g v e := by
  obtain ⟨hlt, hmod, rfl⟩ := h
  have hoff : off = 4 * (BitVec.ofNat 6 (off / 4)).toNat := by simp; omega
  have hd := decodeAccess_writeOffset (BitVec.ofNat 6 (off / 4)) v
  have hc : ((off : Nat) : Int) = 4 * ((BitVec.ofNat 6 (off / 4)).toNat : Int) := by exact_mod_cast hoff
  rw [← hc] at hd
  simp only [Engine.access, wrAt, hd, Engine.effect_decodeWrite]

/-- `RD` at an offset of the map leaves the engine as it is. -/
theorem Engine.access_rdAt (off : Nat) (h : off < 256 ∧ off % 4 = 0) (e : Engine) : e.access (rdAt off) = e := by
  obtain ⟨hlt, hmod⟩ := h
  have hoff : off = 4 * (BitVec.ofNat 6 (off / 4)).toNat := by simp; omega
  have hd := decodeAccess_readOffset (BitVec.ofNat 6 (off / 4))
  have hc : ((off : Nat) : Int) = 4 * ((BitVec.ofNat 6 (off / 4)).toNat : Int) := by exact_mod_cast hoff
  rw [← hc] at hd
  simp only [Engine.access, rdAt, hd, Engine.effect]

/-- `wrAt` and `rdAt` at an offset of the map are served. -/
theorem decodeAccess_wrAt (off : Nat) (v : Word) (h : off < 256 ∧ off % 4 = 0) : decodeAccess (wrAt off v) ≠ .unsupported := by
  obtain ⟨o, rfl⟩ : ∃ o : BitVec 6, off = 4 * o.toNat := ⟨BitVec.ofNat 6 (off / 4), by simp; omega⟩
  simp [wrAt]

theorem decodeAccess_rdAt (off : Nat) (h : off < 256 ∧ off % 4 = 0) : decodeAccess (rdAt off) ≠ .unsupported := by
  obtain ⟨o, rfl⟩ : ∃ o : BitVec 6, off = 4 * o.toNat := ⟨BitVec.ofNat 6 (off / 4), by simp; omega⟩
  simp [rdAt]

/-! ### Byte strings -/

theorem le_append (a b : List Byte) : le (a ++ b) = le a + 2 ^ (8 * a.length) * le b := by
  induction a with
  | nil => simp [le]
  | cons x xs ih =>
    simp only [List.cons_append, le, ih, List.length_cons, Nat.mul_add, Nat.mul_one, Nat.pow_add]
    ring

theorem le_lt (b : List Byte) : le b < 2 ^ (8 * b.length) := by
  induction b with
  | nil => simp [le]
  | cons x xs ih =>
    have := x.isLt
    simp only [le, List.length_cons, Nat.mul_add, Nat.mul_one, Nat.pow_add]
    omega

@[simp] theorem le_replicate_zero (n : Nat) : le (List.replicate n 0#8) = 0 := by
  induction n with
  | zero => rfl
  | succ n ih => simp [List.replicate_succ, le, ih]

@[simp] theorem le_padBytes (n : Nat) (b : List Byte) : le (padBytes n b) = le b := by
  simp [padBytes, le_append]

theorem length_padBytes {n : Nat} {b : List Byte} (h : b.length ≤ n) : (padBytes n b).length = n := by
  simp [padBytes]; omega

/-- Word `i` of a byte string, as `loadWords` writes it. -/
def wordAt (b : List Byte) (i : Nat) : Word := BitVec.ofNat 32 (le ((b.drop (4 * i)).take 4))

theorem wordAt_toNat (b : List Byte) (i : Nat) : (wordAt b i).toNat = le ((b.drop (4 * i)).take 4) := by
  have h := le_lt ((b.drop (4 * i)).take 4)
  have : 2 ^ (8 * ((b.drop (4 * i)).take 4).length) ≤ 2 ^ 32 :=
    Nat.pow_le_pow_right (by decide) (by simp; omega)
  rw [wordAt, BitVec.toNat_ofNat, Nat.mod_eq_of_lt (by omega)]

/-- A byte string cut at `n` bytes. -/
theorem le_split (n : Nat) (b : List Byte) (h : n ≤ b.length) : le b = le (b.take n) + 2 ^ (8 * n) * le (b.drop n) := by
  conv_lhs => rw [← List.take_append_drop n b]
  rw [le_append, List.length_take, Nat.min_eq_left h]

/-- Four words from word `4j` on join to the little-endian number of their 16 bytes. -/
theorem joinWords_wordAt (b : List Byte) (j : Nat) (h : 16 * j + 16 ≤ b.length) :
    (joinWords (wordAt b (4 * j)) (wordAt b (4 * j + 1)) (wordAt b (4 * j + 2)) (wordAt b (4 * j + 3))).toNat =
      le ((b.drop (16 * j)).take 16) := by
  simp only [joinWords_toNat, wordAt_toNat]
  have hd : ∀ k, 4 * (4 * j + k) = 16 * j + 4 * k := fun k => by omega
  have h0 : 4 * (4 * j) = 16 * j := by omega
  rw [h0, hd, hd, hd]
  generalize hc : b.drop (16 * j) = c
  have hlen : 16 ≤ c.length := by rw [← hc, List.length_drop]; omega
  simp only [← List.drop_drop, hc]
  have e1 := le_split 4 (c.take 16) (by simp; omega)
  have e2 := le_split 4 ((c.take 16).drop 4) (by simp; omega)
  have e3 := le_split 4 ((c.take 16).drop 8) (by simp; omega)
  simp only [List.drop_drop, List.drop_take, List.take_take] at e1 e2 e3
  norm_num at e1 e2 e3 ⊢
  omega

/-! ### Pseudo-instructions -/

@[simp] theorem Engine.accesses_setPol (pol : Policy) (e : Engine) : e.accesses (setPol pol) = { e with policy := pol } := by
  have hw : writeCtrl e.policy (pol.code.setWidth 32) = pol := by cases pol <;> rfl
  simp only [setPol, Engine.accesses_cons, Engine.accesses_nil, Engine.access_wrAt 0x04 .ctrl (by decide), writeReg, hw]

@[simp] theorem Engine.accesses_cmd (c : Command) (e : Engine) : e.accesses (cmd c) = e.command c := by
  simp only [cmd, Engine.accesses_cons, Engine.accesses_nil, Engine.access_wrAt 0x0C .cmd (by decide), writeReg,
    Engine.commandWord, decodeCommand_word]

@[simp] theorem Engine.accesses_rdStat (e : Engine) : e.accesses rdStat = e := Engine.access_rdAt 0x08 (by decide) e

@[simp] theorem Engine.accesses_rdTag (e : Engine) : e.accesses rdTag = e := by
  simp only [rdTag, Engine.accesses_cons, Engine.accesses_nil, Engine.access_rdAt 0x50 (by decide),
    Engine.access_rdAt 0x54 (by decide), Engine.access_rdAt 0x58 (by decide), Engine.access_rdAt 0x5C (by decide)]

theorem loadWords_eight (base : Nat) (b : List Byte) :
    loadWords base 8 b = [wrAt base (wordAt b 0), wrAt (base + 4) (wordAt b 1), wrAt (base + 8) (wordAt b 2),
      wrAt (base + 12) (wordAt b 3), wrAt (base + 16) (wordAt b 4), wrAt (base + 20) (wordAt b 5),
      wrAt (base + 24) (wordAt b 6), wrAt (base + 28) (wordAt b 7)] := rfl

theorem loadWords_four (base : Nat) (b : List Byte) :
    loadWords base 4 b = [wrAt base (wordAt b 0), wrAt (base + 4) (wordAt b 1), wrAt (base + 8) (wordAt b 2),
      wrAt (base + 12) (wordAt b 3)] := rfl

/-- `LDKEYN` writes the key words and KEY_LEN, and nothing else. -/
theorem Engine.accesses_ldKeyN (k : List Byte) (e : Engine) :
    e.accesses (ldKeyN k) =
      let b := padBytes 32 (k.take (min k.length 32))
      { e with
        key := #v[wordAt b 0, wordAt b 1, wordAt b 2, wordAt b 3, wordAt b 4, wordAt b 5, wordAt b 6, wordAt b 7]
        keyLen := BitVec.ofNat 32 k.length } := by
  have set_all (v : Vector Word 8) (w0 w1 w2 w3 w4 w5 w6 w7 : Word) :
      (((((((v.set 0 w0).set 1 w1).set 2 w2).set 3 w3).set 4 w4).set 5 w5).set 6 w6).set 7 w7 =
        #v[w0, w1, w2, w3, w4, w5, w6, w7] := by
    ext i hi
    interval_cases i <;> simp
  simp only [ldKeyN, loadWords_eight, Engine.accesses_append, Engine.accesses_cons, Engine.accesses_nil, Nat.reduceAdd,
    Engine.access_wrAt 0x20 (.key 0) (by decide), Engine.access_wrAt 0x24 (.key 1) (by decide),
    Engine.access_wrAt 0x28 (.key 2) (by decide), Engine.access_wrAt 0x2C (.key 3) (by decide),
    Engine.access_wrAt 0x30 (.key 4) (by decide), Engine.access_wrAt 0x34 (.key 5) (by decide),
    Engine.access_wrAt 0x38 (.key 6) (by decide), Engine.access_wrAt 0x3C (.key 7) (by decide),
    Engine.access_wrAt 0x10 .keyLen (by decide), writeReg, Fin.isValue]
  rw [← set_all e.key]
  rfl

/-- `LDBLK` writes the block words and BLK_LEN, and nothing else. -/
theorem Engine.accesses_ldBlk (c : List Byte) (e : Engine) :
    e.accesses (ldBlk c) =
      let b := padBytes 16 c
      { e with
        blk := #v[wordAt b 0, wordAt b 1, wordAt b 2, wordAt b 3]
        blkLen := BitVec.ofNat 32 c.length } := by
  have set_all (v : Vector Word 4) (w0 w1 w2 w3 : Word) :
      (((v.set 0 w0).set 1 w1).set 2 w2).set 3 w3 = #v[w0, w1, w2, w3] := by
    ext i hi
    interval_cases i <;> simp
  simp only [ldBlk, loadWords_four, Engine.accesses_append, Engine.accesses_cons, Engine.accesses_nil, Nat.reduceAdd,
    Engine.access_wrAt 0x40 (.blk 0) (by decide), Engine.access_wrAt 0x44 (.blk 1) (by decide),
    Engine.access_wrAt 0x48 (.blk 2) (by decide), Engine.access_wrAt 0x4C (.blk 3) (by decide),
    Engine.access_wrAt 0x14 .blkLen (by decide), writeReg, Fin.isValue]
  rw [← set_all e.blk]
  rfl

/-- The block value ABSORB forms after `LDBLK c` is `le(c) + 2^(8·len(c))`. -/
theorem blockValue_ldBlk {c : List Byte} (h : c.length ≤ 16) (e : Engine) :
    blockValue (e.accesses (ldBlk c)).blkLen.toNat (e.accesses (ldBlk c)).blkRaw = le c + 2 ^ (8 * c.length) := by
  have hlen := length_padBytes h
  have hl : (BitVec.ofNat 32 c.length).toNat = c.length := by rw [BitVec.toNat_ofNat]; omega
  have hb := joinWords_wordAt (padBytes 16 c) 0 (by omega)
  simp only [Nat.mul_zero, Nat.zero_add, List.drop_zero, List.take_of_length_le (Nat.le_of_eq hlen), le_padBytes] at hb
  simp only [Engine.accesses_ldBlk, Engine.blkRaw, blockValue, hl]
  simp only [Vector.getElem_mk, List.getElem_toArray, List.getElem_cons_zero, List.getElem_cons_succ]
  rw [hb, Nat.mod_eq_of_lt (le_lt c)]

/-- `ABS c` in a message folds the chunk `c`. -/
theorem Engine.accesses_absChunk {c : List Byte} (h : c.length ≤ 16) {e : Engine} (hm : e.state = .keyReady ∨ e.state = .folding) :
    e.accesses (absChunk c) =
      { e.accesses (ldBlk c) with
        acc := foldBlock e.acc e.r (le c + 2 ^ (8 * c.length))
        blkCnt := e.blkCnt + 1
        lastLen := BitVec.ofNat 5 c.length
        state := .folding
        err := .ok } := by
  have hv := blockValue_ldBlk h e
  have hl : (BitVec.ofNat 32 c.length).toNat = c.length := by rw [BitVec.toNat_ofNat]; omega
  rw [absChunk, Engine.accesses_append, Engine.accesses_cmd]
  rw [Engine.accesses_ldBlk] at hv ⊢
  obtain ⟨hs, -⟩ | ⟨-, hs, -⟩ | ⟨-, -, ha⟩ := Engine.absorb_cases
    { e with
      blk := #v[wordAt (padBytes 16 c) 0, wordAt (padBytes 16 c) 1, wordAt (padBytes 16 c) 2, wordAt (padBytes 16 c) 3]
      blkLen := BitVec.ofNat 32 c.length }
  · obtain hm | hm := hm <;> simp [hm] at hs
  · simp only [hl] at hs
    omega
  · rw [hv] at ha
    simp only [hl] at ha
    exact ha

/-- What the host's block loop leaves: the fold of the chunks in ACC, their count in BLKCNT, the last length, and the registers it
does not touch. -/
structure Folded (cs : List (List Byte)) (e e' : Engine) : Prop where
  acc : e'.acc.toNat = cs.foldl (foldChunk e.r.toNat) e.acc.toNat
  blkCnt : e'.blkCnt = e.blkCnt + BitVec.ofNat 32 cs.length
  state : e'.state = if cs = [] then e.state else .folding
  lastLen : e'.lastLen = (cs.getLast?.map fun c => BitVec.ofNat 5 c.length).getD e.lastLen
  err : e.err = .ok → e'.err = .ok
  r : e'.r = e.r
  s : e'.s = e.s
  policy : e'.policy = e.policy
  key : e'.key = e.key
  tag : e'.tag = e.tag

theorem Engine.accesses_absChunks {cs : List (List Byte)} (h : ∀ c ∈ cs, c.length ≤ 16) {e : Engine}
    (hm : e.state = .keyReady ∨ e.state = .folding) : Folded cs e (e.accesses (cs.flatMap absChunk)) := by
  induction cs generalizing e with
  | nil => constructor <;> simp
  | cons c cs ih =>
    rw [List.flatMap_cons, Engine.accesses_append, Engine.accesses_absChunk (h c (List.mem_cons_self ..)) hm,
      Engine.accesses_ldBlk]
    have ih' := ih (fun d hd => h d (List.mem_cons_of_mem _ hd)) (e := { e with
      blk := #v[wordAt (padBytes 16 c) 0, wordAt (padBytes 16 c) 1, wordAt (padBytes 16 c) 2, wordAt (padBytes 16 c) 3]
      blkLen := BitVec.ofNat 32 c.length
      acc := foldBlock e.acc e.r (le c + 2 ^ (8 * c.length))
      blkCnt := e.blkCnt + 1
      lastLen := BitVec.ofNat 5 c.length
      state := .folding
      err := .ok }) (.inr rfl)
    constructor
    · rw [ih'.acc, List.foldl_cons, foldBlock_toNat, foldChunk, Nat.add_assoc]
    · rw [ih'.blkCnt, List.length_cons, BitVec.add_assoc, BitVec.ofNat_add, BitVec.add_comm 1]
      rfl
    · rw [ih'.state]
      cases cs <;> simp
    · rw [ih'.lastLen]
      cases cs with
      | nil => simp
      | cons d ds => rw [List.getLast?_cons_cons, List.getLast?_eq_some_getLast (List.cons_ne_nil d ds)]; rfl
    · exact fun _ => ih'.err rfl
    · rw [ih'.r]
    · rw [ih'.s]
    · rw [ih'.policy]
    · rw [ih'.key]
    · rw [ih'.tag]

/-! ### The protocol is served -/

/-- A list of aligned word accesses to the window. -/
def Served (as : List BusAccess) : Prop := ∀ a ∈ as, decodeAccess a ≠ .unsupported

theorem Served.append {as bs : List BusAccess} (ha : Served as) (hb : Served bs) : Served (as ++ bs) := by
  intro a h
  obtain h | h := List.mem_append.1 h
  exacts [ha a h, hb a h]

theorem served_wrAt {off : Nat} {v : Word} (h : off < 256 ∧ off % 4 = 0) : Served [wrAt off v] := by
  simpa [Served] using decodeAccess_wrAt off v h

theorem served_loadWords {base n : Nat} {b : List Byte} (h : base + 4 * n ≤ 256 ∧ base % 4 = 0) : Served (loadWords base n b) := by
  intro a ha
  simp only [loadWords, List.mem_map, List.mem_range] at ha
  obtain ⟨i, hi, rfl⟩ := ha
  exact decodeAccess_wrAt _ _ (by omega)

theorem served_cmd (c : Command) : Served (cmd c) := served_wrAt (by decide)

theorem served_ldKeyN (k : List Byte) : Served (ldKeyN k) := (served_loadWords (by decide)).append (served_wrAt (by decide))

theorem served_absChunk (c : List Byte) : Served (absChunk c) :=
  ((served_loadWords (by decide)).append (served_wrAt (by decide))).append (served_cmd _)

theorem served_absChunks (cs : List (List Byte)) : Served (cs.flatMap absChunk) := by
  intro a ha
  obtain ⟨c, -, h⟩ := List.mem_flatMap.1 ha
  exact served_absChunk c a h

theorem served_rdTag : Served rdTag := by
  intro a ha
  simp only [rdTag, List.mem_cons, List.not_mem_nil, or_false] at ha
  obtain rfl | rfl | rfl | rfl := ha <;> exact decodeAccess_rdAt _ (by decide)

theorem served_rdStat : Served rdStat := by
  intro a ha
  simp only [rdStat, List.mem_cons, List.not_mem_nil, or_false] at ha
  subst ha
  exact decodeAccess_rdAt _ (by decide)

theorem served_setup (pol : Policy) (k : List Byte) : Served (setPol pol ++ ldKeyN k ++ cmd .init ++ rdStat) :=
  (((served_wrAt (by decide)).append (served_ldKeyN k)).append (served_cmd _)).append served_rdStat

theorem served_protocol (pol : Policy) (m k : List Byte) : Served (protocol pol m k) :=
  (((served_setup pol k).append (served_absChunks _)).append (served_cmd _)).append served_rdTag

end Sys2Proof.Machine
end

