-- ==== Sys2Proof/Tests/Slice0.lean ====
section
/-! SUPPORT. Tests on words and values of the spec, each with its source, and a witness for the hypotheses of each statement. -/

namespace Sys2Proof.Tests

open Sys2Proof Sys2Proof.Machine Sys2Proof.Claims

/-! ### Helpers -/

/-- The next state of an outcome. -/
def next? : Host.Outcome State Fault Refusal → Option State
  | .next s => some s
  | .fault _ => none
  | .refused _ => none

/-- The engine after an outcome. -/
def engine? (x : Host.Outcome State Fault Refusal) : Option Engine := (next? x).map State.engine

/-- The word a read returned. -/
def word? (x : Host.Outcome State Fault Refusal) : Option Word := (next? x).bind State.response

/-- A state with this engine and nothing on its bus. -/
def at_ (e : Engine) : State := { engine := e, inputs := [], response := none }

/-- The key of the known-answer test, as written by LDKEY (95_test_vectors.md V1). -/
def keyed : Engine :=
  { Engine.reset with
    keyLen := 0x00000020
    key := #v[0x78BED685, 0x336D5557, 0xFE52447F, 0xA806D542, 0x8A800301, 0xFDB20DFB, 0xAFF6BF4A, 0x1BF54941] }

/-- After INIT with that key (V9 row 1). -/
def ready : Engine := keyed.init

/-- With the first chunk of V1 loaded, "Cryptographic Fo" (P1, transactions 12 to 16). -/
def loaded : Engine := { ready with blk := #v[0x70797243, 0x72676F74, 0x69687061, 0x6F462063], blkLen := 0x00000010 }

/-- V1 before FINAL: three chunks absorbed, the last of 2 bytes. -/
def folded : Engine :=
  { ready with
    acc := 0x28d31b7caff946c77c8844335369d03a7, blkCnt := 3, lastLen := 2, state := .folding
    blk := #v[0x00007075, 0, 0, 0], blkLen := 2 }

/-- After FINAL. -/
def finished : Engine := folded.final

/-- A key with byte 0 = 1: R = 1 (V10). -/
def ready1 : Engine := { ready with r := 1 }

/-! ### Well-formedness: an ill-formed term for each check -/

theorem test_wf_refuses_clamp_word : (Instr.wr 3 0x00000001).wf = false := by decide
theorem test_wf_refuses_init_word : (Instr.wr 3 0x00000002).wf = false := by decide
theorem test_wf_refuses_absorb_word : (Instr.wr 3 0x00000003).wf = false := by decide
theorem test_wf_refuses_final_word : (Instr.wr 3 0x00000004).wf = false := by decide
theorem test_wf_refuses_clear_word : (Instr.wr 3 0x00000005).wf = false := by decide
theorem test_wf_accepts_reserved_words :
    (Instr.wr 3 0x00000000).wf = true ∧ (Instr.wr 3 0x00000006).wf = true ∧ (Instr.wr 3 0x00000103).wf = true := by decide

/-! ### Decoding: words written out from 30_encoding.md R70, R72, R76 and opcode_table.json -/

/-- MBZ = 0, OPCODE = 0x01 (R72). -/
theorem test_decode_clamp : decodeAccess (.write 0x0C 4 0b00000000000000000000000000000001) = .instr .clamp := by decide
theorem test_decode_init : decodeAccess (.write 0x0C 4 0b00000000000000000000000000000010) = .instr .init := by decide
theorem test_decode_absorb : decodeAccess (.write 0x0C 4 0b00000000000000000000000000000011) = .instr .absorb := by decide
theorem test_decode_final : decodeAccess (.write 0x0C 4 0b00000000000000000000000000000100) = .instr .final := by decide
theorem test_decode_clear : decodeAccess (.write 0x0C 4 0b00000000000000000000000000000101) = .instr .clear := by decide

/-- Offset byte oooooo00 with o = 000101: 0x14, BLK_LEN; `WR 0x14, 0x00000002` (R101's example). -/
theorem test_decode_wr : decodeAccess (.write 0b00010100 4 0x00000002) = .instr (.wr 0b000101 0x00000002) := by decide

/-- Offset byte 0xFC, the last of the window. -/
theorem test_decode_rd : decodeAccess (.read 0b11111100 4) = .instr (.rd 0b111111) := by decide

/-- R181: "The word 0x00000103 is illegal, although its OPCODE field is that of ABSORB". -/
theorem test_decode_reserved_words :
    decodeCommand 0x00000000 = none ∧ decodeCommand 0x00000006 = none ∧ decodeCommand 0x000000FF = none ∧
    decodeCommand 0x00000103 = none ∧ decodeCommand 0x80000002 = none := by decide

/-- R54: half words, and words off their alignment, are refused; R100: outside the window. -/
theorem test_decode_refusals :
    decodeAccess (.read 0x10 2) = .unsupported ∧ decodeAccess (.write 0x12 4 0) = .unsupported ∧
    decodeAccess (.read (-2) 4) = .unsupported ∧ decodeAccess (.read 0x100 4) = .outside ∧ decodeAccess (.read (-4) 4) = .outside := by
  decide

/-- The table's words through the host's two entries. -/
theorem test_table_words :
    decodeTableWord 32 1 = some .clamp ∧ decodeTableWord 32 5 = some .clear ∧ decodeTableWord 8 0b00010100 = some (.wr 5 0) ∧
    decodeTableWord 8 0b00000001 = none := by decide

/-- INIT as the first step after reset: KEY_LEN is 0, so STATUS becomes 0x00000010 (R125). -/
theorem test_first_step_runs_init :
    (engine? (step (State.reset.withFetchWord 32 2))).map statusWord = some 0x00000010 := by decide

/-! ### One step of each instruction (95_test_vectors.md) -/

/-- V8 row 2. -/
theorem test_clamp_all_ones :
    (engine? (exec .clamp (at_ { keyed with key := Vector.replicate 8 0xFFFFFFFF }))).map Engine.key =
      some #v[0x0FFFFFFF, 0x0FFFFFFC, 0x0FFFFFFC, 0x0FFFFFFC, 0xFFFFFFFF, 0xFFFFFFFF, 0xFFFFFFFF, 0xFFFFFFFF] := by decide

/-- V12 row 5: CLAMP after an illegal word in KEY_READY. -/
theorem test_clamp_sets_ok :
    (engine? (exec .clamp (at_ { ready with err := .illegalCommand }))).map statusWord = some 0x00000001 := by decide

/-- V9 row 1 and R123's example. -/
theorem test_init_latches_r_and_s :
    (engine? (exec .init (at_ keyed))).map (fun e => (e.r, e.s, statusWord e)) =
      some (0x0806d5400e52447c036d555408bed685, 0x1bf54941aff6bf4afdb20dfb8a800301, 0x00000001) := by decide

/-- V9 row 3: KEY_LEN = 0x120 has 32 in its low byte. -/
theorem test_init_checks_all_of_key_len :
    (engine? (exec .init (at_ { keyed with keyLen := 0x120 }))).map (fun e => (e.key[0], statusWord e)) =
      some (0x78BED685, 0x00000010) := by decide

/-- V1, chunk 1. -/
theorem test_absorb_first_chunk :
    (engine? (exec .absorb (at_ loaded))).map (fun e => (e.acc, e.blkCnt, statusWord e)) =
      some (0x2c88c77849d64ae9147ddeb88e69c83fc, 1, 0x00001002) := by decide

/-- V10 row 3: reduction past P with R = 1. -/
theorem test_absorb_reduces_past_p :
    (engine? (exec .absorb (at_ { ready1 with
      acc := 0x1ffffffffffffffffffffffffffffffff, blk := Vector.replicate 4 0xFFFFFFFF, blkLen := 16, state := .folding }))).map
        Engine.acc = some 3 := by decide

/-- V1: the source's expected tag. -/
theorem test_final_known_answer :
    (engine? (exec .final (at_ folded))).map (fun e => (e.tag, e.acc, statusWord e)) =
      some (#v[0xC11D06A8, 0xC6365130, 0xAF8B2BC2, 0xA927010C], 0, 0x00000203) := by decide

/-- V13, REFERENCE: the pad block after a full chunk. -/
theorem test_final_reference_pad :
    (engine? (exec .final (at_ { loaded.absorb with policy := .reference }))).map (fun e => (e.tag, e.blkCnt, statusWord e)) =
      some (#v[0xD8CAD30B, 0x32B1E678, 0xE8C1753B, 0x5A358E96], 2, 0x00000003) := by decide

/-- V12 row 1. -/
theorem test_clear_keeps_ctrl :
    (engine? (exec .clear (at_ { finished with policy := .reference }))).map
        (fun e => (ctrlWord e, statusWord e, e.key, e.tag, e.blkLen)) =
      some (0x00000001, 0x00000000, Vector.replicate 8 0, Vector.replicate 4 0, 0) := by decide

/-- R103's example: `WR 0x04, 0xFFFFFFFE` sets POLICY = 2. -/
theorem test_wr_ctrl_ignores_high_bits :
    (engine? (exec (.wr 1 0xFFFFFFFE) (at_ ready))).map ctrlWord = some 0x00000002 := by decide

/-- V12 row 2: an illegal word in KEY_READY changes ERR only. -/
theorem test_wr_cmd_illegal :
    engine? (exec (.wr 3 0x80000002) (at_ ready)) = some { ready with err := .illegalCommand } := by decide

/-- V1: ACC3 and ACC4 after chunk 1 (P3, transactions 21 and 22). -/
theorem test_rd_acc :
    word? (exec (.rd 27) (at_ loaded.absorb)) = some 0xC88C7784 ∧ word? (exec (.rd 28) (at_ loaded.absorb)) = some 0x00000002 := by
  decide

/-- V10 row 13: STATUS after ABSORB with BLK_LEN = 17 in FOLDING. -/
theorem test_rd_status :
    word? (exec (.rd 2) (at_ ({ loaded.absorb with blkLen := 17 } : Engine).absorb)) = some 0x00001022 := by decide

/-- R205: chunk counts at L = 0, 16 and 34. -/
theorem test_chunk_counts :
    ([0, 16, 34].map fun n => (chunks .design (List.replicate n 0)).length) = [1, 1, 3] ∧
    ([0, 16, 34].map fun n => (chunks .reference (List.replicate n 0)).length) = [1, 2, 3] ∧
    ([0, 16, 34].map fun n => (chunks .standard (List.replicate n 0)).length) = [0, 1, 3] := by decide

/-! ### Witnesses: states and operands that meet the hypotheses of the statements -/

theorem keyed_inv : keyed.Inv := ⟨by decide, by decide, by decide, by decide, by decide, by decide⟩
theorem ready_inv : ready.Inv := ⟨by decide, by decide, by decide, by decide, by decide, by decide⟩
theorem folded_inv : folded.Inv := ⟨by decide, by decide, by decide, by decide, by decide, by decide⟩
theorem finished_inv : finished.Inv := ⟨by decide, by decide, by decide, by decide, by decide, by decide⟩

theorem witness_DecodeOfEncodeIsTheInstruction :
    (Instr.wr 63 0xFFFFFFFF).wf = true ∧ (Instr.wr 3 0x00000006).wf = true ∧ (Instr.rd 63).wf = true ∧ Instr.final.wf = true := by decide

theorem witness_EncodeOfDecodeIsTheAccess :
    decodeAccess (.write 0x0C 4 0x00000006) = .instr (.wr 3 6) ∧ decodeAccess (.read 0 4) = .instr (.rd 0) := by decide

theorem witness_StepRunsTheDecodedInstruction :
    ∃ s : State, s.inputs = .access (.write 0x0C 4 4) :: [.reset] ∧ decodeAccess (.write 0x0C 4 4) = .instr .final :=
  ⟨{ at_ folded with inputs := [.access (.write 0x0C 4 4), .reset] }, rfl, by decide⟩

/-- Both branches, at the first and last words of the window and across its lower edge. -/
theorem witness_OnlyAlignedWordAccessesAreServed :
    (∃ s : State, s.inputs = [.access (.read 0 4)]) ∧
    ((0 : Int) < 256 ∧ (0 : Int) < 0 + (4 : Nat) ∧ (4 = 4 ∧ (0 : Int) % 4 = 0)) ∧
    ((252 : Int) < 256 ∧ (0 : Int) < 252 + (4 : Nat) ∧ (4 = 4 ∧ (252 : Int) % 4 = 0)) ∧
    ((255 : Int) < 256 ∧ (0 : Int) < 255 + (1 : Nat) ∧ ¬(1 = 4 ∧ (255 : Int) % 4 = 0)) ∧
    ((-3 : Int) < 256 ∧ (0 : Int) < -3 + (4 : Nat) ∧ ¬(4 = 4 ∧ (-3 : Int) % 4 = 0)) :=
  ⟨⟨{ at_ keyed with inputs := [.access (.read 0 4)] }, rfl⟩, by decide, by decide, by decide, by decide⟩

/-- Each clause at a boundary of the window: the first word, the last, the byte below it, the byte above it, and a byte inside. -/
theorem witness_AccessesAreAbsoluteWithinTheWindow :
    (∃ s : State, s.inputs = [.access (memRead Config.base 4)]) ∧
    (∃ s : State, s.inputs = [.access (memWrite (Config.base + 252) 4 5)]) ∧
    Config.base = Config.base + 4 * (0 : BitVec 6).toNat ∧ Config.base + 252 = Config.base + 4 * (63 : BitVec 6).toNat ∧
    Config.base + 256 ≤ Config.base + 256 ∧
    (Config.base < Config.base + 255 + 1 ∧ Config.base + 255 < Config.base + 256 ∧ ¬(1 = 4 ∧ (Config.base + 255) % 4 = 0)) :=
  ⟨⟨{ at_ keyed with inputs := [.access (memRead Config.base 4)] }, rfl⟩,
    ⟨{ at_ keyed with inputs := [.access (memWrite (Config.base + 252) 4 5)] }, rfl⟩, by simp, by simp, Nat.le_refl _, by omega⟩

theorem witness_EngineWaitsWithoutInput : (at_ folded).inputs = [] := rfl

theorem witness_LaterInputsDoNotAffectTheStep :
    ∃ t, step { at_ keyed with inputs := [.access (.write 0x0C 4 2), .reset] } = .next t ∧ t.engine = ready :=
  ⟨_, rfl, by decide⟩

theorem witness_HardwareResetSetsEveryRegister : ∃ s : State, s.inputs = [.reset] ∧ s.engine.state = .folding :=
  ⟨{ at_ folded with inputs := [.reset] }, rfl, rfl⟩

theorem witness_RunsOfAdmittedInputsNeverStop :
    ({ at_ keyed with inputs := [.access (.write 0x0C 4 2), .access (.read 0x100 2), .reset] } : State).hostKeepsR54 := by
  intro x hx
  simp only [List.mem_cons, List.not_mem_nil, or_false] at hx
  obtain rfl | rfl | rfl := hx <;> decide

/-- The corner cases of the read statement: a tag read outside DONE, ACC read after FINAL, KEY read after INIT and after CLAMP; each
offset bound at both ends. -/
theorem witness_ReadsReturnTheMappedWord :
    ((at_ folded).engine.Inv ∧ (at_ folded).engine.state ≠ .done ∧ 0x50 ≤ 4 * (20 : BitVec 6).toNat ∧ 4 * (23 : BitVec 6).toNat ≤ 0x5C) ∧
    ((at_ folded).engine.Inv ∧ exec .final (at_ folded) = .next (at_ finished) ∧
      0x60 ≤ 4 * (24 : BitVec 6).toNat ∧ 4 * (28 : BitVec 6).toNat ≤ 0x70) ∧
    ((at_ keyed).engine.keyLen = 32 ∧ exec .init (at_ keyed) = .next (at_ ready)) ∧
    exec .clamp (at_ keyed) = .next (at_ keyed.clamp) :=
  ⟨⟨folded_inv, by decide, by decide, by decide⟩, ⟨folded_inv, rfl, by decide, by decide⟩, ⟨by decide, rfl⟩, rfl⟩

theorem witness_WritesStoreByTheMap :
    4 * (1 : BitVec 6).toNat = 0x04 ∧ 4 * (3 : BitVec 6).toNat = 0x0C ∧ decodeCommand 5 = some .clear ∧ decodeCommand 6 = none ∧
    4 * (15 : BitVec 6).toNat = 0x20 + 4 * (7 : Fin 8).val ∧ 4 * (19 : BitVec 6).toNat = 0x40 + 4 * (3 : Fin 4).val ∧
    0x50 ≤ 4 * (63 : BitVec 6).toNat := by decide

theorem witness_CtrlWriteKeepsALegalPolicy :
    (0xFFFFFFFC : Word).toNat % 4 = 0 ∧ (0x1 : Word).toNat % 4 = 1 ∧ (0xFFFFFFFE : Word).toNat % 4 = 2 ∧
    (0x3 : Word).toNat % 4 = 3 ∧ Command.absorb ≠ .final ∧ exec Command.absorb.instr (at_ loaded) = .next (at_ loaded.absorb) :=
  ⟨by decide, by decide, by decide, by decide, by decide, rfl⟩

theorem witness_ReadOnlyAndReservedOffsets :
    4 * (0 : BitVec 6).toNat = 0x00 ∧ 0x50 ≤ 4 * (20 : BitVec 6).toNat ∧ 4 * (3 : BitVec 6).toNat = 0x0C ∧
    0x74 ≤ 4 * (29 : BitVec 6).toNat := by decide

theorem witness_WrittenWordsReadBack :
    4 * (4 : BitVec 6).toNat = 0x10 ∧ 4 * (5 : BitVec 6).toNat = 0x14 ∧
    (0x20 ≤ 4 * (8 : BitVec 6).toNat ∧ 4 * (19 : BitVec 6).toNat < 0x50) := by decide

theorem witness_ReservedBitsReadAsZero :
    4 * (7 : BitVec 6).toNat = 0x1C ∧ 0x74 ≤ 4 * (63 : BitVec 6).toNat ∧
    (0xFFFFFFFE : Word).extractLsb' 0 2 = (0x2 : Word).extractLsb' 0 2 := by decide

theorem witness_VisibleFieldsStayLegal : (at_ finished).engine.Inv := finished_inv

theorem witness_ClampActsOnTheNamedBytes : (15 : Nat) < 16 ∧ keyed.key = (at_ keyed).engine.key := ⟨by decide, rfl⟩

theorem witness_ClampProperties : (127 : Nat) < 128 ∧ clampClears 127 = true ∧ clampClears 0 = false := by decide

theorem witness_InitSetsUpTheKeyOrAborts :
    (at_ keyed).engine.keyLen.toNat = 32 ∧ (at_ { keyed with keyLen := 33 }).engine.keyLen.toNat ≠ 32 := by decide

theorem witness_RepeatedInitChangesNothing : exec .init (at_ keyed) = .next (at_ ready) := rfl

/-- Each clause, at BLK_LEN = 16 and 17 and in both states in which ABSORB is not legal. -/
theorem witness_AbsorbFoldsTheBlock :
    (inMessage (at_ loaded).engine ∧ (at_ loaded).engine.blkLen.toNat = 16) ∧
    (inMessage (at_ folded).engine ∧ (at_ folded).engine.blkLen.toNat ≤ 16) ∧
    (at_ keyed).engine.state = .start ∧ (at_ finished).engine.state = .done ∧
    (inMessage (at_ { loaded with blkLen := 17 }).engine ∧ 16 < (at_ { loaded with blkLen := 17 }).engine.blkLen.toNat) :=
  ⟨⟨.inl rfl, by decide⟩, ⟨.inr rfl, by decide⟩, rfl, rfl, .inl rfl, by decide⟩

theorem witness_AbsorbIntermediatesStayBounded :
    (at_ folded).engine.Inv ∧ inMessage (at_ folded).engine ∧ (at_ folded).engine.blkLen.toNat ≤ 16 ∧
    exec .absorb (at_ folded) = .next (at_ folded.absorb) :=
  ⟨folded_inv, .inr rfl, by decide, rfl⟩

theorem witness_AbsorbIgnoresBytesPastTheLength :
    wordSum 0xFFFF7075 1 2 3 % 2 ^ (8 * (at_ folded).engine.blkLen.toNat) =
      blkSum (at_ folded).engine % 2 ^ (8 * (at_ folded).engine.blkLen.toNat) ∧
    exec .absorb (at_ folded) = .next (at_ folded.absorb) :=
  ⟨by decide, rfl⟩

theorem witness_AbsorbCornerValues :
    ((at_ ready).engine.Inv ∧ (at_ ready).engine.state = .keyReady ∧ (at_ ready).engine.blkLen = 0) ∧
    (inMessage (at_ { loaded with r := 0 }).engine ∧ (at_ { loaded with r := 0 }).engine.blkLen.toNat ≤ 16 ∧
      (at_ { loaded with r := 0 }).engine.r = 0) :=
  ⟨⟨ready_inv, rfl, rfl⟩, .inl rfl, by decide, rfl⟩

/-- A state of each side of the pad decision, and each state in which FINAL is not legal. -/
theorem witness_FinalWritesTheTag :
    (inMessage (at_ ready).engine ∧ pads (at_ ready).engine) ∧ (inMessage (at_ folded).engine ∧ ¬pads (at_ folded).engine) ∧
    (at_ keyed).engine.state = .start ∧ (at_ finished).engine.state = .done :=
  ⟨⟨.inl rfl, .inl ⟨rfl, rfl⟩⟩, ⟨.inr rfl, by unfold pads; decide⟩, rfl, rfl⟩

theorem witness_PadBlockFollowsThePolicy :
    inMessage (at_ ready).engine ∧ (at_ ready).engine.policy = .design ∧
    (at_ { loaded.absorb with policy := .reference }).engine.lastLen.toNat = 16 ∧
    (at_ { ready with policy := .standard }).engine.policy = .standard :=
  ⟨.inl rfl, rfl, by decide, rfl⟩

theorem witness_TagBytesAreLittleEndian :
    (inMessage (at_ ready).engine ∧ pads (at_ ready).engine) ∧ (inMessage (at_ folded).engine ∧ ¬pads (at_ folded).engine) :=
  ⟨⟨.inl rfl, .inl ⟨rfl, rfl⟩⟩, ⟨.inr rfl, by unfold pads; decide⟩⟩

theorem witness_FinalConsumesTheAccumulator : inMessage (at_ folded).engine := .inr rfl

theorem witness_EmptyMessageTag : (at_ ready).engine.Inv ∧ (at_ ready).engine.state = .keyReady := ⟨ready_inv, rfl⟩

theorem witness_ReservedWordsReportIllegalCommand : (0x0 : Word).toNat = 0 ∧ 6 ≤ (0x6 : Word).toNat ∧ 6 ≤ (0x103 : Word).toNat := by decide

theorem witness_FailingCommandsChangeOnlyErr :
    exec (.rd 2) (at_ ready) = .next { at_ ready with response := some 1 } ∧ ((4 : BitVec 6) ≠ 3 ∧
      exec (.wr 4 31) (at_ ready) = .next (at_ { ready with keyLen := 31 })) ∧
    (exec Command.absorb.instr (at_ keyed) = .next (at_ (keyed.raise .sequence)) ∧ (keyed.raise .sequence).err ≠ .ok) ∧
    (exec Command.init.instr (at_ Engine.reset) = .next (at_ Engine.reset.init) ∧ Engine.reset.init.err ≠ .ok) :=
  ⟨rfl, ⟨by decide, rfl⟩, ⟨rfl, by decide⟩, ⟨rfl, by decide⟩⟩

theorem witness_EveryStepKeepsTheInvariants :
    ∃ s t : State, s.engine.Inv ∧ step s = .next t ∧ t.engine.state = .done :=
  ⟨{ at_ folded with inputs := [.access (.write 0x0C 4 4)] }, _, folded_inv, rfl, by decide⟩

theorem witness_AccumulatorStaysReduced :
    (inMessage (at_ loaded).engine ∧ (at_ loaded).engine.blkLen.toNat ≤ 16) ∧
    ((at_ loaded).engine.acc.toNat < P ∧ exec (.wr 3 3) (at_ loaded) = .next (at_ loaded.absorb)) :=
  ⟨⟨.inl rfl, by decide⟩, by decide, rfl⟩

theorem witness_OnlyCommandsMoveTheState :
    Instr.absorb.wf = true ∧ exec .absorb (at_ loaded) = .next (at_ loaded.absorb) ∧ loaded.absorb.state ≠ loaded.state :=
  ⟨rfl, rfl, by decide⟩

theorem witness_OnlyFinalWritesANonzeroTag :
    Instr.init.wf = true ∧ exec .init (at_ finished) = .next (at_ finished.init) ∧ Instr.init ≠ .final := ⟨rfl, rfl, by decide⟩

theorem witness_CommandsWriteTheKeyOnlyToClampOrClear :
    exec Command.final.instr (at_ folded) = .next (at_ finished) ∧ (at_ keyed).engine.keyLen.toNat = 32 := ⟨rfl, by decide⟩

theorem witness_KeyRegistersReachTheRestOnlyThroughInit :
    Instr.absorb.wf = true ∧ Instr.absorb ≠ .init ∧ exec .absorb (at_ loaded) = .next (at_ loaded.absorb) := ⟨rfl, by decide, rfl⟩

theorem witness_PolicyReachesTheRestOnlyThroughFinal :
    Instr.init.wf = true ∧ Instr.init ≠ .final ∧ exec .init (at_ keyed) = .next (at_ ready) := ⟨rfl, by decide, rfl⟩

theorem witness_ChunkListsOfThePolicies : (List.replicate 17 (0 : Byte)).length % 16 ≠ 0 := by decide

theorem witness_ProtocolComputesPoly1305 : (List.replicate 32 (0xFF : Byte)).length = 32 := by decide

theorem witness_WrongKeyLengthGivesNoTag :
    (List.replicate 33 (0 : Byte)).length ≠ 32 ∧ (List.replicate 33 (0 : Byte)).length < 2 ^ 32 := by decide

end Sys2Proof.Tests
end

section
/-! SUPPORT. The register map, the words of CTRL, STATUS and ACC4 as numbers, and what a read shows of the engine
(10_state.md R22, R25, R36, R40). -/

namespace Sys2Proof.Machine

open Sys2Proof

/-! ### The register map at CTRL, STATUS, ACC4 and the reserved offsets -/

@[simp] theorem regAt_one : regAt 1 = .ctrl := by decide

@[simp] theorem regAt_two : regAt 2 = .status := by decide

@[simp] theorem regAt_twentyEight : regAt 28 = .acc 4 := by decide

theorem regAt_reserved (o : BitVec 6) : 4 * o.toNat = 0x1C ∨ 0x74 ≤ 4 * o.toNat → regAt o = .reserved := by
  revert o
  exact forall_offset (by decide)

/-! ### The words of CTRL, STATUS and ACC4 -/

theorem ctrlWord_toNat (e : Engine) : (ctrlWord e).toNat = e.policy.code.toNat :=
  BitVec.toNat_setWidth_of_le (by decide)

/-- A field placed above the bits of `x` adds to it. -/
theorem toNat_or_shiftLeft {x y : Word} {k : Nat} (hx : x.toNat < 2 ^ k) (hy : y.toNat * 2 ^ k < 2 ^ 32) :
    (x ||| y <<< k).toNat = x.toNat + y.toNat * 2 ^ k := by
  rw [BitVec.toNat_or, BitVec.toNat_shiftLeft, Nat.shiftLeft_eq, Nat.mod_eq_of_lt hy, ← Nat.shiftLeft_eq, Nat.or_comm,
    ← Nat.shiftLeft_add_eq_or_of_lt hx, Nat.shiftLeft_eq, Nat.add_comm]

/-- The three fields of STATUS do not overlap, so the word is their weighted sum. -/
theorem statusWord_toNat (e : Engine) :
    (statusWord e).toNat = e.state.code.toNat + 16 * e.err.code.toNat + 256 * e.lastLen.toNat := by
  have hstate : (e.state.code.setWidth 32).toNat = e.state.code.toNat := BitVec.toNat_setWidth_of_le (by decide)
  have herr : (e.err.code.setWidth 32).toNat = e.err.code.toNat := BitVec.toNat_setWidth_of_le (by decide)
  have hlen : (e.lastLen.setWidth 32).toNat = e.lastLen.toNat := BitVec.toNat_setWidth_of_le (by decide)
  have := e.state.code.isLt
  have := e.err.code.isLt
  have := e.lastLen.isLt
  have hlow := toNat_or_shiftLeft (x := e.state.code.setWidth 32) (y := e.err.code.setWidth 32) (k := 4) (by omega) (by omega)
  rw [statusWord, toNat_or_shiftLeft (by omega) (by omega), hlow]
  omega

theorem accWord_four_toNat (acc : BitVec 130) : (accWord acc 4).toNat = acc.toNat / 2 ^ 128 := by
  have := acc.isLt
  rw [accWord, if_neg (by decide), BitVec.toNat_setWidth_of_le (by decide), BitVec.extractLsb'_toNat,
    Nat.shiftRight_eq_div_pow, Nat.mod_eq_of_lt (by omega)]

theorem Policy.code_toNat_le (p : Policy) : p.code.toNat ≤ 2 := by cases p <;> decide

theorem ErrorCode.code_toNat_le (c : ErrorCode) : c.code.toNat ≤ 4 := by cases c <;> decide

/-- A field of a word is 0, by the word's number. -/
theorem extractLsb'_eq_zero_iff {w : Nat} (v : BitVec w) (start len : Nat) :
    v.extractLsb' start len = 0 ↔ v.toNat / 2 ^ start % 2 ^ len = 0 := by
  rw [← BitVec.toNat_inj, BitVec.extractLsb'_toNat, Nat.shiftRight_eq_div_pow]
  simp

/-- A CTRL write looks at bits [1:0] only (R103). -/
theorem writeCtrl_congr {v w : Word} (h : v.extractLsb' 0 2 = w.extractLsb' 0 2) (old : Policy) :
    writeCtrl old v = writeCtrl old w := by
  simp only [writeCtrl, h]

/-! ### What a read shows -/

/-- R and S have no register in the window (R37, R38). -/
theorem readReg_hides_r_s (g : Reg) (e : Engine) (r m : BitVec 128) :
    readReg g { e with r := r, s := m } = readReg g e := by
  cases g <;> rfl

/-- R42: after reset every offset but ID's reads 0. -/
theorem readReg_reset (o : BitVec 6) : readReg (regAt o) Engine.reset = if o = 0 then 0x13050001 else 0 := by
  revert o
  exact forall_offset (by decide)

end Sys2Proof.Machine
end

section
/-! SUPPORT. Which registers an instruction can move, and what the commands leave in STATE, ACC and KEY
(10_state.md R26, R33, R39). -/

namespace Sys2Proof.Machine

open Sys2Proof Sys2Proof.Claims

/-! ### The registers of the message -/

/-- `e'` holds what `e` holds in every register that R41 speaks of: those of the message in progress and its result. -/
structure Engine.SameMessage (e e' : Engine) : Prop where
  state : e'.state = e.state
  r : e'.r = e.r
  s : e'.s = e.s
  acc : e'.acc = e.acc
  blkCnt : e'.blkCnt = e.blkCnt
  lastLen : e'.lastLen = e.lastLen
  tag : e'.tag = e.tag

theorem Engine.SameMessage.refl (e : Engine) : e.SameMessage e := by constructor <;> rfl

theorem Engine.sameMessage_raise (c : ErrorCode) (e : Engine) : e.SameMessage (e.raise c) := by constructor <;> rfl

theorem Engine.sameMessage_clamp (e : Engine) : e.SameMessage e.clamp := by constructor <;> rfl

/-- A write runs a command or moves no register of the message. -/
theorem writeReg_command_or_sameMessage (g : Reg) (v : Word) (e : Engine) :
    (∃ c, g = .cmd ∧ decodeCommand v = some c ∧ writeReg g v e = e.command c) ∨ e.SameMessage (writeReg g v e) := by
  obtain h | h | h | h | ⟨i, h⟩ | ⟨i, h⟩ | hc | ⟨-, -, h⟩ := writeReg_cases g v e
  on_goal 7 => exact .inl hc
  all_goals exact .inr (by rw [h]; constructor <;> rfl)

/-- An instruction is a command, which its well-formed name says, or moves no register of the message. -/
theorem Engine.effect_command_or_sameMessage (i : Instr) (e : Engine) :
    (∃ c : Command, e.effect i = e.command c ∧ (i.wf = true → i = c.instr)) ∨ e.SameMessage (e.effect i) := by
  cases i with
  | clamp => exact .inl ⟨.clamp, rfl, fun _ => rfl⟩
  | init => exact .inl ⟨.init, rfl, fun _ => rfl⟩
  | absorb => exact .inl ⟨.absorb, rfl, fun _ => rfl⟩
  | final => exact .inl ⟨.final, rfl, fun _ => rfl⟩
  | clear => exact .inl ⟨.clear, rfl, fun _ => rfl⟩
  | wr o v =>
    obtain ⟨c, hg, hd, hc⟩ | hsame := writeReg_command_or_sameMessage (regAt o) v e
    · refine .inl ⟨c, hc, fun hwf => ?_⟩
      rw [Instr.wf_wr hwf hg] at hd
      cases hd
    · exact .inr hsame
  | rd o => exact .inr (.refl e)

/-! ### The accumulator, the state and the key after a command -/

/-- A command keeps ACC, zeroes it, or folds a block into it. -/
theorem Engine.command_acc_cases (c : Command) (e : Engine) :
    (e.command c).acc = e.acc ∨ (e.command c).acc = 0 ∨ ∃ n, (e.command c).acc = foldBlock e.acc e.r n := by
  cases c with
  | clamp => exact .inl rfl
  | init => obtain ⟨-, h⟩ | ⟨-, h⟩ := e.init_cases <;> exact .inr (.inl (by simp [Engine.command, h]))
  | absorb =>
    obtain ⟨-, h⟩ | ⟨-, -, h⟩ | ⟨-, -, h⟩ := e.absorb_cases
    · exact .inl (by simp [Engine.command, h])
    · exact .inl (by simp [Engine.command, h])
    · exact .inr (.inr ⟨blockValue e.blkLen.toNat e.blkRaw, by simp [Engine.command, h]⟩)
  | final =>
    obtain ⟨-, h⟩ | ⟨-, -, h⟩ | ⟨-, -, h⟩ := e.final_cases
    · exact .inl (by simp [Engine.command, h])
    · exact .inr (.inl (by simp [Engine.command, h]))
    · exact .inr (.inl (by simp [Engine.command, h]))
  | clear => exact .inr (.inl rfl)

theorem Engine.command_acc_lt {e : Engine} (h : e.acc.toNat < P) (c : Command) : (e.command c).acc.toNat < P := by
  obtain hacc | hacc | ⟨n, hacc⟩ := e.command_acc_cases c <;> rw [hacc]
  · exact h
  · exact P_pos
  · exact foldBlock_lt ..

/-- The moves of the lifecycle (R26), by the command that makes each. -/
theorem Engine.command_state_cases (c : Command) (e : Engine) :
    (e.command c).state = e.state ∨
    ((e.command c).state = .start ∧ (c = .clear ∨ c = .init ∧ e.keyLen.toNat ≠ 32)) ∨
    ((e.command c).state = .keyReady ∧ c = .init ∧ e.keyLen.toNat = 32) ∨
    ((e.command c).state = .folding ∧ c = .absorb ∧ inMessage e ∧ e.blkLen.toNat ≤ 16) ∨
    ((e.command c).state = .done ∧ c = .final ∧ inMessage e) := by
  cases c with
  | clamp => exact .inl rfl
  | init =>
    obtain ⟨hk, h⟩ | ⟨hk, h⟩ := e.init_cases
    · simp [Engine.command, h, hk]
    · simp [Engine.command, h, hk]
  | absorb =>
    obtain ⟨-, h⟩ | ⟨-, -, h⟩ | ⟨hm, hl, h⟩ := e.absorb_cases
    · simp [Engine.command, h]
    · simp [Engine.command, h]
    · simp [Engine.command, h, inMessage, hm, hl]
  | final =>
    obtain ⟨-, h⟩ | ⟨hm, -, h⟩ | ⟨hm, -, h⟩ := e.final_cases
    · simp [Engine.command, h]
    · simp [Engine.command, h, inMessage, hm]
    · simp [Engine.command, h, inMessage, hm]
  | clear => simp [Engine.command]

/-- The clamp in place is the table of R121. -/
theorem Engine.clampKey_key_eq_clampedKey (e : Engine) : e.clampKey.key = clampedKey e.key := e.clampKey_key

/-- The key after a command (R33, R124, R125). -/
theorem Engine.command_key (c : Command) (e : Engine) :
    (e.command c).key =
      if c = .clear then Vector.replicate 8 0
      else if c = .clamp ∨ c = .init ∧ e.keyLen.toNat = 32 then clampedKey e.key
      else e.key := by
  cases c with
  | clamp => simp [Engine.command, Engine.clampKey_key_eq_clampedKey]
  | init =>
    obtain ⟨hk, h⟩ | ⟨hk, h⟩ := e.init_cases
    · simp [Engine.command, h, hk, Engine.clampKey_key_eq_clampedKey]
    · simp [Engine.command, h, hk]
  | absorb => obtain ⟨-, h⟩ | ⟨-, -, h⟩ | ⟨-, -, h⟩ := e.absorb_cases <;> simp [Engine.command, h]
  | final => obtain ⟨-, h⟩ | ⟨-, -, h⟩ | ⟨-, -, h⟩ := e.final_cases <;> simp [Engine.command, h]
  | clear => simp [Engine.command]

end Sys2Proof.Machine
end

section
/-! SUPPORT. The invariants R41: each outcome of a command gives them, so every instruction keeps them. -/

namespace Sys2Proof.Machine

open Sys2Proof

theorem Engine.Inv.of_sameMessage {e e' : Engine} (he : e.Inv) (h : e.SameMessage e') : e'.Inv := by
  obtain ⟨hstate, hr, hs, hacc, hcnt, hlen, htag⟩ := h
  constructor
  · rw [hacc]; exact he.accBelowP
  · rw [hstate, hr, hs, hacc]; exact he.idleZero
  · rw [hstate, hr]; exact he.rClamped
  · rw [hstate, hacc, hcnt, hlen]; exact he.keyReadyZero
  · rw [hstate, htag]; exact he.tagOnlyDone
  · rw [hlen]; exact he.lastLenBound

/-- With no message begun, the invariants ask for zeroes only. -/
theorem Engine.inv_of_start {e : Engine} (hstate : e.state = .start) (hzero : e.r = 0 ∧ e.s = 0 ∧ e.acc = 0)
    (htag : e.tag = Vector.replicate 4 0) (hlen : e.lastLen = 0) : e.Inv where
  accBelowP := by rw [hzero.2.2]; exact P_pos
  idleZero _ := hzero
  rClamped h := by simp [hstate] at h
  keyReadyZero h := by simp [hstate] at h
  tagOnlyDone _ := htag
  lastLenBound := by simp [hlen]

theorem Engine.inv_reset : Engine.reset.Inv := inv_of_start rfl ⟨rfl, rfl, rfl⟩ rfl rfl

theorem Engine.inv_clear (e : Engine) : e.clear.Inv := inv_of_start rfl ⟨rfl, rfl, rfl⟩ rfl rfl

theorem Engine.inv_abort (e : Engine) : e.abort.Inv := inv_of_start rfl ⟨rfl, rfl, rfl⟩ rfl rfl

/-- A successful INIT latches a clamped R over an aborted engine. -/
theorem Engine.inv_abort_latchKey (e : Engine) : e.abort.latchKey.Inv where
  accBelowP := P_pos
  idleZero h := by simp at h
  rClamped _ := by rw [Engine.latchKey_r, Engine.rRaw_clampKey, clamp128_clamp128]
  keyReadyZero _ := ⟨rfl, rfl, rfl⟩
  tagOnlyDone _ := rfl
  lastLenBound := Nat.zero_le _

/-- A folded block of at most 16 bytes: R and the zero tag stay, ACC is reduced. -/
theorem Engine.Inv.fold {e : Engine} (he : e.Inv) (hm : e.state = .keyReady ∨ e.state = .folding) {l : Nat} (hl : l ≤ 16)
    (n : Nat) (c : ErrorCode) : Engine.Inv { e.foldIn l n with state := .folding, err := c } where
  accBelowP := foldBlock_lt ..
  idleZero h := by simp at h
  rClamped _ := he.rClamped hm
  keyReadyZero h := by cases h
  tagOnlyDone _ := he.tagOnlyDone (by obtain h | h := hm <;> simp [h])
  lastLenBound := by rw [Engine.foldIn_lastLen, BitVec.toNat_ofNat]; omega

/-- Writing the tag consumes R, S and ACC (R163). -/
theorem Engine.inv_writeTag {e : Engine} (hlen : e.lastLen.toNat ≤ 16) : e.writeTag.Inv where
  accBelowP := P_pos
  idleZero _ := ⟨rfl, rfl, rfl⟩
  rClamped h := by simp at h
  keyReadyZero h := by cases h
  tagOnlyDone h := absurd rfl h
  lastLenBound := hlen

theorem Engine.Inv.command {e : Engine} (he : e.Inv) (c : Command) : (e.command c).Inv := by
  cases c with
  | clamp => exact he.of_sameMessage e.sameMessage_clamp
  | init =>
    obtain ⟨-, h⟩ | ⟨-, h⟩ := e.init_cases <;> rw [Engine.command, h]
    · exact e.inv_abort_latchKey
    · exact e.inv_abort.of_sameMessage (Engine.sameMessage_raise ..)
  | absorb =>
    obtain ⟨-, h⟩ | ⟨-, -, h⟩ | ⟨hm, hl, h⟩ := e.absorb_cases <;> rw [Engine.command, h]
    · exact he.of_sameMessage (Engine.sameMessage_raise ..)
    · exact he.of_sameMessage (Engine.sameMessage_raise ..)
    · exact he.fold hm hl ..
  | final =>
    obtain ⟨-, h⟩ | ⟨-, -, h⟩ | ⟨-, -, h⟩ := e.final_cases <;> rw [Engine.command, h]
    · exact he.of_sameMessage (Engine.sameMessage_raise ..)
    · exact Engine.inv_writeTag (Nat.zero_le 16)
    · exact Engine.inv_writeTag he.lastLenBound
  | clear => exact e.inv_clear

theorem Engine.Inv.effect {e : Engine} (he : e.Inv) (i : Instr) : (e.effect i).Inv := by
  obtain ⟨c, hc, -⟩ | hsame := e.effect_command_or_sameMessage i
  · rw [hc]; exact he.command c
  · exact he.of_sameMessage hsame

end Sys2Proof.Machine
end

section
/-! PROOFS. The statements of 10_state.md: the invariants, what the registers show, and what may move them. -/

namespace Sys2Proof.Proofs

open Sys2Proof Sys2Proof.Machine Sys2Proof.Claims

/-- Settles O41: waiting and accesses outside the window keep the engine, a reset meets R41, and every instruction keeps it. -/
theorem everyStepKeepsTheInvariants : Obligations.EveryStepKeepsTheInvariants :=
  fun _ _ hs h => step_preserves Engine.inv_reset (fun i _ he => he.effect i) hs h

/-- Settles O19, from the numbers the three words with reserved fields read as, and the register map. -/
theorem reservedBitsReadAsZero : Obligations.ReservedBitsReadAsZero := by
  intro s
  refine ⟨⟨_, exec_rd 1 s, ?ctrl⟩, ⟨_, exec_rd 2 s, ?status⟩, ⟨_, exec_rd 28 s, ?acc4⟩, ?reserved, ?write, ?readOnly⟩
  case ctrl =>
    have := s.engine.policy.code.isLt
    rw [regAt_one, readReg, extractLsb'_eq_zero_iff, ctrlWord_toNat]
    omega
  case status =>
    have := s.engine.state.code.isLt
    have := s.engine.err.code.isLt
    have := s.engine.lastLen.isLt
    rw [regAt_two, readReg, extractLsb'_eq_zero_iff, extractLsb'_eq_zero_iff, statusWord_toNat]
    omega
  case acc4 =>
    have := s.engine.acc.isLt
    rw [regAt_twentyEight, readReg, extractLsb'_eq_zero_iff, accWord_four_toNat]
    omega
  case reserved =>
    intro o v ho
    rw [exec_rd, exec_wr, regAt_reserved o ho]
    exact ⟨rfl, rfl⟩
  case write =>
    intro v w h
    simp only [exec_wr, regAt_one, writeReg, writeCtrl_congr h]
  case readOnly =>
    intro v
    rw [exec_wr, exec_wr, regAt_two, regAt_twentyEight]
    exact ⟨rfl, rfl⟩

/-- Settles O20: POLICY and ERR by their codes, LAST_LEN by R41 (f). -/
theorem visibleFieldsStayLegal : Obligations.VisibleFieldsStayLegal := by
  intro s hs
  have hpolicy := s.engine.policy.code_toNat_le
  have herr := s.engine.err.code_toNat_le
  have hlen := hs.lastLenBound
  have hstate := s.engine.state.code.isLt
  refine ⟨_, _, exec_rd 1 s, exec_rd 2 s, ?_⟩
  rw [regAt_one, regAt_two, readReg, readReg, ctrlWord_toNat, statusWord_toNat]
  omega

/-- Settles O42: the fold is reduced modulo P, and nothing else raises ACC. -/
theorem accumulatorStaysReduced : Obligations.AccumulatorStaysReduced := by
  refine ⟨fun s hm hl => ⟨_, exec_command .absorb s, ?_⟩, fun i s t hs h => ?_⟩
  · obtain ⟨hidle, -⟩ | ⟨-, hlong, -⟩ | ⟨-, -, h⟩ := s.engine.absorb_cases
    · obtain hm | hm := hm <;> simp [hm] at hidle
    · omega
    · rw [Engine.command, h]
      exact foldBlock_lt ..
  · rw [exec_engine h]
    obtain ⟨c, hc, -⟩ | hsame := s.engine.effect_command_or_sameMessage i
    · rw [hc]; exact Engine.command_acc_lt hs c
    · rw [hsame.acc]; exact hs

/-- Settles O43: what is no command keeps STATE, and a command moves it as the lifecycle says. -/
theorem onlyCommandsMoveTheState : Obligations.OnlyCommandsMoveTheState := by
  intro i s t hwf h hmoved
  rw [exec_engine h] at hmoved ⊢
  obtain ⟨c, hc, hname⟩ | hsame := s.engine.effect_command_or_sameMessage i
  · rw [hc] at hmoved ⊢
    obtain rfl := hname hwf
    obtain hkept | ⟨hst, rfl | ⟨rfl, hk⟩⟩ | ⟨hst, rfl, hk⟩ | ⟨hst, rfl, hm⟩ | ⟨hst, rfl, hm⟩ :=
      s.engine.command_state_cases c
    · exact absurd hkept hmoved
    · exact .inl ⟨hst, .inl rfl⟩
    · exact .inl ⟨hst, .inr ⟨rfl, hk⟩⟩
    · exact .inr (.inl ⟨hst, rfl, hk⟩)
    · exact .inr (.inr (.inl ⟨hst, rfl, hm⟩))
    · exact .inr (.inr (.inr ⟨hst, rfl, hm⟩))
  · exact absurd hsame.state hmoved

/-- Settles O45, from the key that each command leaves. -/
theorem commandsWriteTheKeyOnlyToClampOrClear : Obligations.CommandsWriteTheKeyOnlyToClampOrClear := by
  intro c s t h
  rw [exec_command] at h
  cases h
  exact s.engine.command_key c

/-- Settles O11: the 64 offsets by the map, the internal registers by the reset values. -/
theorem resetStateReadsAsTheSpecSays : Obligations.ResetStateReadsAsTheSpecSays := by
  refine ⟨fun o => ?_, rfl, rfl, rfl, rfl, rfl, rfl, rfl⟩
  rw [exec_rd, ← readReg_reset o]
  rfl

/-- Settles O21: the word read at an offset does not involve R and S. -/
theorem readsNeverRevealRAndS : Obligations.ReadsNeverRevealRAndS :=
  fun s o r m => ⟨_, _, exec_rd o s, exec_rd o _, congrArg some (readReg_hides_r_s (regAt o) s.engine r m)⟩

/-- Settles O40. -/
theorem resetMeetsTheInvariants : Obligations.ResetMeetsTheInvariants := Engine.inv_reset

end Sys2Proof.Proofs
end

section
/-! SUPPORT. How an access that touches the window decodes, and what serving it leaves to the inputs behind it
(20_memory.md R54, R60). -/

namespace Sys2Proof.Machine

open Sys2Proof

/-! ### Accesses that touch the window -/

/-- R54 admits a 32-bit access at a multiple of 4: it is an instruction. -/
theorem decodeAccess_of_aligned {a : BusAccess} {off : Int} {width : Nat} {v : Word}
    (ha : a = .read off width ∨ a = .write off width v) (ht : touchesWindow off width = true)
    (hs : admittedShape off width = true) : ∃ i, decodeAccess a = .instr i := by
  obtain rfl | rfl := ha
  · exact ⟨.rd (wordOffset off), by simp [decodeAccess, ht, hs]⟩
  · exact ⟨decodeWrite (wordOffset off) v, by simp [decodeAccess, ht, hs]⟩

/-- R54 admits no other width and no other alignment. -/
theorem decodeAccess_of_misaligned {a : BusAccess} {off : Int} {width : Nat} {v : Word}
    (ha : a = .read off width ∨ a = .write off width v) (ht : touchesWindow off width = true)
    (hs : admittedShape off width ≠ true) : decodeAccess a = .unsupported := by
  obtain rfl | rfl := ha <;> simp [decodeAccess, ht, hs]

/-! ### The step at an access -/

theorem serve_outside {a : BusAccess} (h : decodeAccess a = .outside) (s : State) : serve a s = .next s := by
  simp [serve, h]

theorem serve_unsupported {a : BusAccess} (h : decodeAccess a = .unsupported) (s : State) :
    serve a s = .refused .unsupportedAccess := by
  simp [serve, h]

theorem step_of_access {s : State} {a : BusAccess} {rest : List Input} (h : s.inputs = .access a :: rest) :
    step s = serve a { s with inputs := rest, response := none } := by
  rw [step, h]

/-! ### The inputs behind the one served -/

/-- An instruction neither takes nor looks at the inputs still to come. -/
theorem exec_frame_inputs {i : Instr} {s t : State} (h : exec i s = .next t) (ys : List Input) :
    t.inputs = s.inputs ∧ exec i { s with inputs := ys } = .next { t with inputs := ys } := by
  cases i <;> cases h <;> exact ⟨rfl, rfl⟩

end Sys2Proof.Machine
end

section
/-! SUPPORT. The operand registers: a write replaces the word held, and a read returns it (20_memory.md R56). -/

namespace Sys2Proof.Machine

open Sys2Proof

/-- The registers that hold whatever word the host wrote: KEY_LEN, BLK_LEN, KEY0..KEY7 and BLK0..BLK3 (R30, R31, R33, R34). -/
def Reg.isOperand : Reg → Bool
  | .keyLen | .blkLen | .key _ | .blk _ => true
  | .id | .ctrl | .status | .cmd | .blkCnt | .tag _ | .acc _ | .reserved => false

theorem regAt_isOperand (o : BitVec 6) :
    4 * o.toNat = 0x10 ∨ 4 * o.toNat = 0x14 ∨ 0x20 ≤ 4 * o.toNat ∧ 4 * o.toNat < 0x50 → (regAt o).isOperand = true := by
  revert o
  exact forall_offset (by decide)

theorem writeReg_writeReg {g : Reg} (hg : g.isOperand = true) (v w : Word) (e : Engine) :
    writeReg g w (writeReg g v e) = writeReg g w e := by
  cases g with
  | keyLen => rfl
  | blkLen => rfl
  | key i => simp [writeReg]
  | blk i => simp [writeReg]
  | _ => cases hg

theorem readReg_writeReg {g : Reg} (hg : g.isOperand = true) (v : Word) (e : Engine) : readReg g (writeReg g v e) = v := by
  cases g with
  | keyLen => rfl
  | blkLen => rfl
  | key i => simp [writeReg, readReg]
  | blk i => simp [writeReg, readReg]
  | _ => cases hg

end Sys2Proof.Machine
end

section
/-! SUPPORT. `le_bytes` and `le` undo each other, and the number of a register group (00_scope.md R12; 20_memory.md R52). -/

namespace Sys2Proof.Machine

open Sys2Proof Sys2Proof.Claims

@[simp] theorem length_leBytes (v n : Nat) : (leBytes v n).length = n := by
  simp [leBytes]

/-- The least significant byte comes first, then the bytes of the rest. -/
theorem leBytes_succ (v n : Nat) : leBytes v (n + 1) = BitVec.ofNat 8 (v % 256) :: leBytes (v / 256) n := by
  simp only [leBytes, List.range_succ_eq_map, List.map_cons, List.map_map, Nat.mul_zero, Nat.pow_zero, Nat.div_one]
  congr 1
  refine List.map_congr_left fun i _ => ?_
  rw [Function.comp_apply, Nat.succ_eq_add_one, Nat.mul_add, Nat.add_comm, Nat.pow_add, Nat.div_div_eq_div_mul]

/-- `n` bytes hold the number modulo `2^(8n)`. -/
theorem le_leBytes (v n : Nat) : le (leBytes v n) = v % 2 ^ (8 * n) := by
  induction n generalizing v with
  | zero => simp [leBytes, le, Nat.mod_one]
  | succ n ih =>
    have hpow : 2 ^ (8 * (n + 1)) = 256 * 2 ^ (8 * n) := by rw [Nat.mul_add, Nat.pow_add, Nat.mul_comm]
    rw [leBytes_succ, le, ih, BitVec.toNat_ofNat, hpow, Nat.mod_mul]
    omega

/-- A byte string is the bytes of its number. -/
theorem leBytes_le (b : List Byte) : leBytes (le b) b.length = b := by
  induction b with
  | nil => rfl
  | cons x xs ih =>
    have := x.isLt
    have hlow : (x.toNat + 256 * le xs) % 256 = x.toNat := by omega
    have hhigh : (x.toNat + 256 * le xs) / 256 = le xs := by omega
    rw [List.length_cons, leBytes_succ, le, hlow, hhigh, ih, BitVec.ofNat_toNat, BitVec.setWidth_eq]

/-- The four bytes of a word are its number. -/
theorem le_leBytes_word (w : Word) : le (leBytes w.toNat 4) = w.toNat := by
  rw [le_leBytes, Nat.mod_eq_of_lt w.isLt]

@[simp] theorem length_groupBytes {n : Nat} (g : Vector Word n) : (groupBytes g).length = 4 * n := by
  simp [groupBytes, Nat.mul_comm]

theorem groupBytes_four (w0 w1 w2 w3 : Word) :
    groupBytes #v[w0, w1, w2, w3] = leBytes w0.toNat 4 ++ (leBytes w1.toNat 4 ++ (leBytes w2.toNat 4 ++ leBytes w3.toNat 4)) := by
  simp [groupBytes]

/-- The number of a group of four registers, its first word the least significant. -/
theorem le_groupBytes_four (w0 w1 w2 w3 : Word) : le (groupBytes #v[w0, w1, w2, w3]) = wordSum w0 w1 w2 w3 := by
  simp only [groupBytes_four, le_append, length_leBytes, le_leBytes_word, wordSum]
  ring

end Sys2Proof.Machine
end

section
/-! PROOFS. The statements of 20_memory.md: which accesses are served, in what order, and what the registers keep. -/

namespace Sys2Proof.Proofs

open Sys2Proof Sys2Proof.Machine Sys2Proof.Claims

/-- Settles O6, from how an access that touches the window decodes. -/
theorem onlyAlignedWordAccessesAreServed : Obligations.OnlyAlignedWordAccessesAreServed := by
  intro s off width v rest a ha hs hlow hhigh
  have ht := (touchesWindow_iff off width).2 ⟨hlow, hhigh⟩
  rw [step_of_access hs]
  split
  · rename_i hshape
    obtain ⟨i, hi⟩ := decodeAccess_of_aligned ha ht ((admittedShape_iff off width).2 hshape)
    obtain ⟨r, hr⟩ := exec_eq i { s with inputs := rest, response := none }
    exact ⟨_, (serve_instr hi _).trans hr⟩
  · rename_i hshape
    exact serve_unsupported (decodeAccess_of_misaligned ha ht (mt (admittedShape_iff off width).1 hshape)) _

/-- Settles O9: a reset, an access outside the window and an instruction each leave the list behind them alone. -/
theorem laterInputsDoNotAffectTheStep : Obligations.LaterInputsDoNotAffectTheStep := by
  intro s t x xs ys h
  obtain ⟨hnil, -⟩ | ⟨rest, hx, rfl⟩ | ⟨a, rest, hx, hd, rfl⟩ | ⟨a, rest, i, hx, hd, he⟩ := step_cases h
  · cases hnil
  · cases hx
    exact ⟨rfl, rfl⟩
  · cases hx
    exact ⟨rfl, serve_outside hd _⟩
  · cases hx
    obtain ⟨hin, hys⟩ := exec_frame_inputs he ys
    exact ⟨hin, (serve_instr hd _).trans hys⟩

/-- Settles O18: the offsets named are those of the operand registers. -/
theorem writtenWordsReadBack : Obligations.WrittenWordsReadBack := by
  intro s o v w ho
  have hg := regAt_isOperand o ho
  refine ⟨_, _, exec_wr o v s, exec_wr o w _, ?_, ?_⟩
  · rw [exec_wr, writeReg_writeReg hg]
  · rw [exec_rd, readReg_writeReg hg]

/-- Settles O48: the bytes of a group have its number, and a byte string is the bytes of its number. -/
theorem groupNumberIsLittleEndianBytes : Obligations.GroupNumberIsLittleEndianBytes := by
  intro w0 w1 w2 w3
  have hbytes := leBytes_le (groupBytes #v[w0, w1, w2, w3])
  rw [length_groupBytes, le_groupBytes_four] at hbytes
  exact ⟨length_groupBytes _, le_groupBytes_four .., hbytes⟩

/-- Settles O5: the step serves the oldest access, which is what it decodes to. -/
theorem stepRunsTheDecodedInstruction : Obligations.StepRunsTheDecodedInstruction :=
  fun _ _ _ _ hs hd => (step_of_access hs).trans (serve_instr hd _)

end Sys2Proof.Proofs
end

section
/-! SUPPORT. The encoder beside the decoder: the access that names a command, when a write is well formed, and what
decoding a write and encoding it again gives (30_encoding.md R70 to R72, R76). -/

namespace Sys2Proof

/-! ### Command words by number -/

theorem decodeCommand_eq_some_iff_toNat (w : Word) (c : Command) : decodeCommand w = some c ↔ w.toNat = c.word.toNat := by
  rw [decodeCommand_eq_some_iff, BitVec.toNat_inj]

/-- The ILLEGAL words of R71. -/
theorem decodeCommand_eq_none_iff (w : Word) : decodeCommand w = none ↔ w.toNat = 0 ∨ 6 ≤ w.toNat := by
  rw [decodeCommand_toNat]
  split_ifs <;> simp <;> omega

/-! ### Commands -/

theorem Command.wf_instr (c : Command) : c.instr.wf = true := by cases c <;> rfl

/-- A command is a write of its word at the offset of CMD. -/
theorem encode_instr (c : Command) : encode c.instr = .write (4 * cmdOffset.toNat) 4 c.word := by cases c <;> rfl

theorem decodeAccess_encode_instr (c : Command) : decodeAccess (encode c.instr) = .instr c.instr := by
  rw [encode_instr, decodeAccess_writeOffset, decodeWrite_word]

/-! ### Writes -/

/-- A write is well formed when it is not a command's second name. -/
theorem Instr.wf_wr_iff (o : BitVec 6) (v : Word) : (Instr.wr o v).wf = true ↔ (o = cmdOffset → decodeCommand v = none) := by
  have hwords : commandWords.contains v = false ↔ decodeCommand v = none := by
    rw [← Bool.not_eq_true, commandWords_contains_iff, ← Option.isSome_iff_exists, Option.not_isSome_iff_eq_none]
  rw [Instr.wf, Bool.not_eq_true', Bool.and_eq_false_imp, beq_iff_eq, hwords]

theorem decodeWrite_of_wf {o : BitVec 6} {v : Word} (h : (Instr.wr o v).wf = true) : decodeWrite o v = .wr o v := by
  obtain ⟨c, ho, rfl, -⟩ | ⟨-, hwr⟩ := decodeWrite_cases o v
  · have hnone := (Instr.wf_wr_iff o c.word).1 h ho
    rw [decodeCommand_word] at hnone
    cases hnone
  · exact hwr

theorem wf_decodeWrite (o : BitVec 6) (v : Word) : (decodeWrite o v).wf = true := by
  obtain ⟨c, -, -, hc⟩ | ⟨hnone, hwr⟩ := decodeWrite_cases o v
  · rw [hc, c.wf_instr]
  · rw [hwr, Instr.wf_wr_iff]
    exact hnone

/-- Whichever name decoding gives a write, that name's encoding is the write. -/
theorem encode_decodeWrite (o : BitVec 6) (v : Word) : encode (decodeWrite o v) = .write (4 * o.toNat) 4 v := by
  obtain ⟨c, rfl, rfl, hc⟩ | ⟨-, hwr⟩ := decodeWrite_cases o v
  · rw [hc, encode_instr]
  · rw [hwr, encode]

end Sys2Proof
end

section
/-! PROOFS. The statements of 30_encoding.md: the opcode map, and that decoder and encoder undo each other. -/

namespace Sys2Proof.Proofs

open Sys2Proof Sys2Proof.Machine Sys2Proof.Claims

/-- Settles O3: a command by its word at CMD, a well-formed write and a read at their offsets. -/
theorem decodeOfEncodeIsTheInstruction : Obligations.DecodeOfEncodeIsTheInstruction := by
  intro i hwf
  cases i with
  | clamp => exact decodeAccess_encode_instr .clamp
  | init => exact decodeAccess_encode_instr .init
  | absorb => exact decodeAccess_encode_instr .absorb
  | final => exact decodeAccess_encode_instr .final
  | clear => exact decodeAccess_encode_instr .clear
  | wr o v => rw [encode, decodeAccess_writeOffset, decodeWrite_of_wf hwf]
  | rd o => exact decodeAccess_readOffset o

/-- Settles O2: a command's word is its number, and the rest of the words are illegal. -/
theorem everyCommandWordHasOneOfSixOutcomes : Obligations.EveryCommandWordHasOneOfSixOutcomes := fun w =>
  have h := decodeCommand_eq_some_iff_toNat w
  ⟨h .clamp, h .init, h .absorb, h .final, h .clear, decodeCommand_eq_none_iff w⟩

/-- Settles O4: only aligned word accesses decode to an instruction, a read to RD and a write to its one well-formed name. -/
theorem encodeOfDecodeIsTheAccess : Obligations.EncodeOfDecodeIsTheAccess := by
  intro a i h
  obtain ⟨o, rfl, rfl⟩ | ⟨o, v, rfl, rfl⟩ := decodeAccess_instr_cases h
  · exact ⟨rfl, rfl⟩
  · exact ⟨wf_decodeWrite o v, encode_decodeWrite o v⟩

/-- Settles O1: each sample is the encoding of its instruction, so O3 decodes it. -/
theorem sampleWordsDecode : Obligations.SampleWordsDecode :=
  have h := decodeOfEncodeIsTheInstruction
  ⟨h .clamp rfl, h .init rfl, h .absorb rfl, h .final rfl, h .clear rfl, h (.wr 0b000101 0x00000010) rfl,
    h (.rd 0b010111) rfl⟩

end Sys2Proof.Proofs
end

section
/-! SUPPORT. Accesses by their bus address: which ones touch the window, and what those that do not decode to
(40_register_access.md R100). -/

namespace Sys2Proof.Machine

open Sys2Proof

/-- BASE is a multiple of 256 (R9). -/
theorem base_mod : Config.base % 256 = 0 := Nat.mul_mod_right ..

theorem touchesWindow_addr_iff (addr width : Nat) :
    touchesWindow ((addr : Int) - Config.base) width = true ↔ addr < Config.base + 256 ∧ Config.base < addr + width := by
  rw [touchesWindow_iff]
  omega

/-- BASE is aligned, so an address is aligned when its offset is. -/
theorem admittedShape_addr_iff (addr width : Nat) :
    admittedShape ((addr : Int) - Config.base) width = true ↔ width = 4 ∧ addr % 4 = 0 := by
  have := base_mod
  rw [admittedShape_iff]
  omega

theorem addr_sub_base (o : BitVec 6) : ((Config.base + 4 * o.toNat : Nat) : Int) - Config.base = 4 * o.toNat := by
  omega

theorem decodeAccess_memRead (o : BitVec 6) : decodeAccess (memRead (Config.base + 4 * o.toNat) 4) = .instr (.rd o) := by
  rw [memRead, addr_sub_base, decodeAccess_readOffset]

theorem decodeAccess_memWrite (o : BitVec 6) (v : Word) :
    decodeAccess (memWrite (Config.base + 4 * o.toNat) 4 v) = .instr (decodeWrite o v) := by
  rw [memWrite, addr_sub_base, decodeAccess_writeOffset]

/-- What touches no byte of the window does not reach the engine. -/
theorem decodeAccess_of_untouched {a : BusAccess} {off : Int} {width : Nat} {v : Word}
    (ha : a = .read off width ∨ a = .write off width v) (ht : touchesWindow off width ≠ true) : decodeAccess a = .outside := by
  obtain rfl | rfl := ha <;> simp [decodeAccess, ht]

end Sys2Proof.Machine
end

section
/-! SUPPORT. The register map by offset, the writes it ignores, and the values that reads show (40_register_access.md R101 to R104). -/

namespace Sys2Proof.Machine

open Sys2Proof Sys2Proof.Claims

/-! ### The register map by offset -/

/-- The window offset of a register in the map of R22; for the reserved offsets, the first of them. -/
def Reg.offset : Reg → Nat
  | .id => 0x00
  | .ctrl => 0x04
  | .status => 0x08
  | .cmd => 0x0C
  | .keyLen => 0x10
  | .blkLen => 0x14
  | .blkCnt => 0x18
  | .reserved => 0x1C
  | .key i => 0x20 + 4 * i.val
  | .blk i => 0x40 + 4 * i.val
  | .tag i => 0x50 + 4 * i.val
  | .acc i => 0x60 + 4 * i.val

/-- The map of R22 read from the register: each is found at its offset. -/
theorem regAt_of_offset (g : Reg) (o : BitVec 6) : 4 * o.toNat = g.offset → regAt o = g := by
  revert o
  cases g with
  | key i => exact forall_offset (by revert i; decide)
  | blk i => exact forall_offset (by revert i; decide)
  | tag i => exact forall_offset (by revert i; decide)
  | acc i => exact forall_offset (by revert i; decide)
  | _ => exact forall_offset (by decide)

theorem regAt_tag (o : BitVec 6) : 0x50 ≤ 4 * o.toNat → 4 * o.toNat ≤ 0x5C → ∃ i, regAt o = .tag i := by
  revert o
  exact forall_offset (by decide)

theorem regAt_acc (o : BitVec 6) : 0x60 ≤ 4 * o.toNat → 4 * o.toNat ≤ 0x70 → ∃ i, regAt o = .acc i := by
  revert o
  exact forall_offset (by decide)

/-! ### Writes -/

/-- The read-only registers and the reserved offsets (R104). -/
def Reg.ignoresWrites : Reg → Bool
  | .id | .status | .blkCnt | .tag _ | .acc _ | .reserved => true
  | .ctrl | .cmd | .keyLen | .blkLen | .key _ | .blk _ => false

theorem regAt_ignoresWrites (o : BitVec 6) :
    4 * o.toNat = 0x00 ∨ 4 * o.toNat = 0x08 ∨ 4 * o.toNat = 0x18 ∨ 4 * o.toNat = 0x1C ∨ 0x50 ≤ 4 * o.toNat →
      (regAt o).ignoresWrites = true := by
  revert o
  exact forall_offset (by decide)

theorem writeReg_of_ignoresWrites {g : Reg} (hg : g.ignoresWrites = true) (v : Word) (e : Engine) : writeReg g v e = e := by
  cases g with
  | id | status | blkCnt | tag _ | acc _ | reserved => rfl
  | ctrl | cmd | keyLen | blkLen | key _ | blk _ => cases hg

/-- A write to a register's offset writes that register. -/
theorem exec_wr_offset (o : BitVec 6) (v : Word) (s : State) (g : Reg) (h : 4 * o.toNat = g.offset) :
    exec (.wr o v) s = .next { s with engine := writeReg g v s.engine } := by
  rw [exec_wr, regAt_of_offset g o h]

theorem exec_wr_of_ignoresWrites {o : BitVec 6} (h : (regAt o).ignoresWrites = true) (v : Word) (s : State) :
    exec (.wr o v) s = .next s := by
  rw [exec_wr, writeReg_of_ignoresWrites h]

/-- `write_ctrl` by the number of v[1:0] (R103). -/
theorem writeCtrl_eq (old : Policy) (v : Word) :
    writeCtrl old v =
      if v.toNat % 4 = 0 then .design else if v.toNat % 4 = 1 then .reference else if v.toNat % 4 = 2 then .standard
      else old := by
  simp [writeCtrl, ← BitVec.toNat_inj]

theorem writeCtrl_code_toNat (old : Policy) (v : Word) :
    (writeCtrl old v).code.toNat = if v.toNat % 4 = 3 then old.code.toNat else v.toNat % 4 := by
  have hcases : v.toNat % 4 = 0 ∨ v.toNat % 4 = 1 ∨ v.toNat % 4 = 2 ∨ v.toNat % 4 = 3 := by omega
  rw [writeCtrl_eq]
  obtain h | h | h | h := hcases <;> simp [h, Policy.code]

/-- Of the commands, only FINAL reads POLICY, and none writes it (R103). -/
theorem Engine.command_policy {c : Command} (hc : c ≠ .final) (e : Engine) (p : Policy) :
    ({ e with policy := p } : Engine).command c = { e.command c with policy := p } := by
  cases c with
  | clamp => rfl
  | init => simp only [Engine.command, Engine.init]; split <;> rfl
  | absorb => simp only [Engine.command, Engine.absorb]; split <;> [rfl; split <;> rfl]
  | final => exact absurd rfl hc
  | clear => rfl

/-! ### Reads -/

/-- A read of a register's offset shows that register. -/
theorem readReg_offset (o : BitVec 6) (e : Engine) (g : Reg) (h : 4 * o.toNat = g.offset) :
    readReg (regAt o) e = readReg g e := by
  rw [regAt_of_offset g o h]

/-- ACC0 to ACC3 are the words of the accumulator, the least significant first (R36). -/
theorem accWord_castSucc_toNat (acc : BitVec 130) (i : Fin 4) :
    (accWord acc i.castSucc).toNat = acc.toNat / 2 ^ (32 * i.val) % 2 ^ 32 := by
  rw [accWord, Fin.val_castSucc, if_pos i.isLt, BitVec.extractLsb'_toNat, Nat.shiftRight_eq_div_pow]

theorem accWord_zero (i : Fin 5) : accWord 0 i = 0 := by
  revert i
  decide

/-- CMD and the reserved offsets read as 0 (R104). -/
theorem readReg_regAt_eq_zero {o : BitVec 6} (h : 4 * o.toNat = 0x0C ∨ 4 * o.toNat = 0x1C ∨ 0x74 ≤ 4 * o.toNat) (e : Engine) :
    readReg (regAt o) e = 0 := by
  obtain h | h := h
  · exact readReg_offset o e .cmd h
  · rw [regAt_reserved o h, readReg]

/-- Outside DONE the tag reads as 0 (R41 (e)). -/
theorem Engine.Inv.readReg_tag {e : Engine} (he : e.Inv) (hs : e.state ≠ .done) (i : Fin 4) : readReg (.tag i) e = 0 := by
  simp [readReg, he.tagOnlyDone hs]

/-- FINAL leaves the accumulator at 0: where it is refused, the engine was idle (R41 (b)). -/
theorem Engine.Inv.final_acc {e : Engine} (he : e.Inv) : e.final.acc = 0 := by
  obtain ⟨hidle, h⟩ | ⟨-, -, h⟩ | ⟨-, -, h⟩ := e.final_cases <;> rw [h]
  · exact (he.idleZero hidle).2.2
  · rfl
  · rfl

/-- CLAMP and a successful INIT leave the key clamped (R120, R123). -/
theorem key_of_clamp_or_init {s s' : State}
    (h : exec .clamp s = .next s' ∨ s.engine.keyLen = 32 ∧ exec .init s = .next s') :
    s'.engine.key = clampedKey s.engine.key := by
  obtain h | ⟨hlen, h⟩ := h <;> rw [exec_engine h]
  · exact s.engine.command_key .clamp
  · have hkey := s.engine.command_key .init
    rwa [if_neg (by decide), if_pos (.inr ⟨rfl, by rw [hlen]; rfl⟩)] at hkey

end Sys2Proof.Machine
end

section
/-! PROOFS. The statements of 40_register_access.md: what reaches the engine, what a read returns and what a write stores. -/

namespace Sys2Proof.Proofs

open Sys2Proof Sys2Proof.Machine Sys2Proof.Claims

/-- Settles O7: by its bus address an access decodes to RD, to what WR does, to nothing or to a refusal. -/
theorem accessesAreAbsoluteWithinTheWindow : Obligations.AccessesAreAbsoluteWithinTheWindow := by
  refine ⟨base_mod, fun s rest addr width v a ha hs => ?_⟩
  rw [step_of_access hs]
  refine ⟨?_, ?_, fun hout => ?_, fun hlow hhigh hshape => ?_⟩
  · rintro o rfl rfl rfl
    exact serve_instr (decodeAccess_memRead o) _
  · rintro o rfl rfl rfl
    rw [serve_instr (decodeAccess_memWrite o v), exec_decodeWrite]
  · refine serve_outside (decodeAccess_of_untouched ha ?_) _
    rw [Ne, touchesWindow_addr_iff]
    omega
  · refine serve_unsupported (decodeAccess_of_misaligned ha ?_ ?_) _
    · exact (touchesWindow_addr_iff addr width).2 ⟨hhigh, hlow⟩
    · exact mt (admittedShape_addr_iff addr width).1 hshape

/-- Settles O14: the map gives the register at each offset, and each register its word; the corner cases are those of the tag outside
DONE, the accumulator after FINAL and the clamped key. -/
theorem readsReturnTheMappedWord : Obligations.ReadsReturnTheMappedWord := by
  intro s o
  have read := readReg_offset o s.engine
  refine ⟨_, exec_rd o s, read .id, fun h => ?ctrl, fun h => ?status, read .cmd, read .keyLen, read .blkLen, read .blkCnt,
    fun i => read (.key i), fun i => read (.blk i), fun i => read (.tag i), fun i h => ?acc, fun h => ?acc4,
    fun h => readReg_regAt_eq_zero (.inr h) _, fun hinv hs hlow hhigh => ?tagIdle, fun s₀ hinv hex hlow hhigh => ?accFinal,
    fun s₀ hex i h => ?keyClamped⟩
  case ctrl => rw [read .ctrl h, readReg, ctrlWord_toNat]
  case status => rw [read .status h, readReg, statusWord_toNat]
  case acc => rw [read (.acc i.castSucc) h, readReg, accWord_castSucc_toNat]
  case acc4 => rw [read (.acc 4) h, readReg, accWord_four_toNat]
  case tagIdle =>
    obtain ⟨i, hi⟩ := regAt_tag o hlow hhigh
    rw [hi, hinv.readReg_tag hs]
  case accFinal =>
    obtain ⟨i, hi⟩ := regAt_acc o hlow hhigh
    have hacc : s.engine.acc = 0 := by rw [exec_engine hex]; exact hinv.final_acc
    rw [hi, readReg, hacc, accWord_zero]
  case keyClamped =>
    rw [read (.key ⟨i.val, by omega⟩) h, readReg]
    simp only [key_of_clamp_or_init hex]

/-- Settles O15: the register at the offset takes the word, CTRL what `write_ctrl` keeps of it, and CMD runs it. -/
theorem writesStoreByTheMap : Obligations.WritesStoreByTheMap := by
  intro s o v
  have write := exec_wr_offset o v s
  refine ⟨fun h => ⟨_, writeCtrl_code_toNat _ v, write .ctrl h⟩, fun h => ⟨fun c hc => ?command, fun hc => ?illegal⟩,
    write .keyLen, write .blkLen, fun i => write (.key i), fun i => write (.blk i),
    fun h => exec_wr_of_ignoresWrites (regAt_ignoresWrites o h) v s⟩
  case command =>
    obtain rfl := regAt_eq_cmd o (regAt_of_offset .cmd o h)
    obtain rfl := (decodeCommand_eq_some_iff v c).1 hc
    exact exec_wr_word c s
  case illegal =>
    rw [write .cmd h, writeReg, Engine.commandWord, hc]
    rfl

/-- Settles O16: `write_ctrl` by the value of v[1:0], and the commands but FINAL under another POLICY. -/
theorem ctrlWriteKeepsALegalPolicy : Obligations.CtrlWriteKeepsALegalPolicy := by
  refine ⟨fun s v => ?_, fun c s t p hc h => ?_⟩
  · have write : exec (.wr 1 v) s = .next (withPolicy s (writeCtrl s.engine.policy v)) := exec_wr_offset 1 v s .ctrl rfl
    rw [write, writeCtrl_eq]
    refine ⟨fun h => ?_, fun h => ?_, fun h => ?_, fun h => ?_⟩ <;> simp [h, withPolicy]
  · rw [exec_command] at h ⊢
    cases h
    rw [withPolicy, Engine.command_policy hc]
    rfl

/-- Settles O17: the registers at these offsets ignore a write, or read as 0. -/
theorem readOnlyAndReservedOffsets : Obligations.ReadOnlyAndReservedOffsets := by
  refine fun s o v => ⟨fun h => exec_wr_of_ignoresWrites (regAt_ignoresWrites o h) v s, fun h => ?_⟩
  rw [exec_rd, readReg_regAt_eq_zero h]

end Sys2Proof.Proofs
end

section
/-! SUPPORT. The clamp by its bytes and bits, and the engine that CLAMP and INIT leave (41_key_setup.md R120 to R126). -/

namespace Sys2Proof.Machine

open Sys2Proof Sys2Proof.Claims

/-! ### The mask of the clamp -/

/-- The mask by bytes: the table of R121. -/
theorem clampMask128_byte (i : Nat) (hi : i < 16) :
    (0x0ffffffc0ffffffc0ffffffc0fffffff : BitVec 128).extractLsb' (8 * i) 8 =
      if i = 3 ∨ i = 7 ∨ i = 11 ∨ i = 15 then 0x0F#8 else if i = 4 ∨ i = 8 ∨ i = 12 then 0xFC#8 else 0xFF#8 := by
  revert i
  decide

/-- The mask by bits: 0 at the positions that R122 (c) names, 1 elsewhere. -/
theorem clampMask128_getLsbD (i : Nat) (hi : i < 128) :
    (0x0ffffffc0ffffffc0ffffffc0fffffff : BitVec 128).getLsbD i = !clampClears i := by
  revert i
  decide

/-! ### The clamp on the number -/

theorem clamp128_getLsbD (v : BitVec 128) {i : Nat} (hi : i < 128) :
    (clamp128 v).getLsbD i = (v.getLsbD i && !clampClears i) := by
  rw [clamp128, BitVec.getLsbD_and, clampMask128_getLsbD i hi]

theorem clamp128_lt (v : BitVec 128) : (clamp128 v).toNat < 2 ^ 124 :=
  (clamp128_le v).trans_lt (by decide)

/-- Masking the four words is clamping their number (R121). -/
theorem wordSum_clamp (w0 w1 w2 w3 : Word) :
    wordSum (w0 &&& clampMask0) (w1 &&& clampMask) (w2 &&& clampMask) (w3 &&& clampMask) =
      (clamp128 (joinWords w0 w1 w2 w3)).toNat := by
  rw [← clamp128_joinWords, joinWords_toNat, wordSum]

/-! ### The engine after CLAMP and after INIT -/

theorem Engine.clampKey_eq (e : Engine) : e.clampKey = { e with key := clampedKey e.key } := by
  rw [← e.clampKey_key_eq_clampedKey]
  rfl

theorem Engine.clamp_clamp (e : Engine) : e.clamp.clamp = e.clamp :=
  calc e.clamp.clamp = { e.clampKey.clampKey with err := .ok } := rfl
    _ = e.clamp := by rw [e.clampKey_clampKey, Engine.clamp]

/-- A successful INIT: R is the clamp of the r half of the key as it was, and S is the other half (R123, R124). -/
theorem Engine.abort_latchKey_eq (e : Engine) :
    e.abort.latchKey = { e with
      key := clampedKey e.key, r := clamp128 e.rRaw, s := e.sRaw, acc := 0, tag := Vector.replicate 4 0, blkCnt := 0,
      lastLen := 0, state := .keyReady, err := .ok } := by
  rw [← e.clampKey_key_eq_clampedKey, ← e.rRaw_clampKey, ← e.sRaw_clampKey]
  rfl

/-- Latching a clamped key latches what the key itself would give. -/
theorem Engine.latchKey_clampKey (e : Engine) : e.clampKey.latchKey = e.latchKey := by
  rw [Engine.latchKey, e.clampKey_clampKey, Engine.latchKey]

/-- The registers that the first INIT left in a message are those that the second one overwrites. -/
theorem Engine.abort_latchKey_abort_latchKey (e : Engine) : e.abort.latchKey.abort.latchKey = e.abort.latchKey :=
  calc e.abort.latchKey.abort.latchKey = e.abort.clampKey.latchKey := rfl
    _ = e.abort.latchKey := e.abort.latchKey_clampKey

theorem Engine.init_of_keyLen_eq {e : Engine} (hk : e.keyLen.toNat = 32) : e.init = e.abort.latchKey :=
  if_neg (not_not.2 (BitVec.eq_of_toNat_eq hk))

theorem Engine.init_of_keyLen_ne {e : Engine} (hk : e.keyLen.toNat ≠ 32) : e.init = e.abort.raise .invalidKeyLength :=
  if_pos fun h => hk (congrArg BitVec.toNat h)

/-- INIT keeps KEY_LEN, so a second INIT has the outcome of the first. -/
theorem Engine.init_init (e : Engine) : e.init.init = e.init := by
  by_cases hk : e.keyLen.toNat = 32
  · rw [init_of_keyLen_eq hk, init_of_keyLen_eq (e := e.abort.latchKey) hk, e.abort_latchKey_abort_latchKey]
  · rw [init_of_keyLen_ne hk, init_of_keyLen_ne (e := e.abort.raise .invalidKeyLength) hk]
    rfl

/-- STATUS after an INIT with a wrong KEY_LEN (R125). -/
theorem statusWord_abort_raise (e : Engine) : statusWord (e.abort.raise .invalidKeyLength) = 0x00000010 := by
  apply BitVec.eq_of_toNat_eq
  rw [statusWord_toNat]
  rfl

theorem exec_clamp (s : State) : exec .clamp s = .next { s with engine := s.engine.clamp } := exec_command .clamp s

theorem exec_init (s : State) : exec .init s = .next { s with engine := s.engine.init } := exec_command .init s

end Sys2Proof.Machine
end

section
/-! PROOFS. The statements of 41_key_setup.md: the clamp, and INIT once and again. -/

namespace Sys2Proof.Proofs

open Sys2Proof Sys2Proof.Machine Sys2Proof.Claims

/-- Settles O22: CLAMP is the table's masks and ERR, and clamping is idempotent. -/
theorem clampMasksTheKeyWords : Obligations.ClampMasksTheKeyWords := by
  refine ⟨decodeCommand_word .clamp, fun s => ⟨_, exec_clamp s, ?masked, ?again⟩⟩
  case masked => rw [Engine.clamp, s.engine.clampKey_eq]
  case again => rw [exec_clamp, s.engine.clamp_clamp]

/-- Settles O23: the mask byte by byte, and the four words masked by it. -/
theorem clampActsOnTheNamedBytes : Obligations.ClampActsOnTheNamedBytes := by
  refine fun k => ⟨fun i hi => ?bytes, wordSum_clamp k[0] k[1] k[2] k[3], ?registers⟩
  case bytes => rw [clamp128, BitVec.extractLsb'_and, clampMask128_byte i hi]
  case registers =>
    rintro e rfl
    exact e.clampKey_eq

/-- Settles O24: the mask bounds the number and is 0 at the 22 positions only. -/
theorem clampProperties : Obligations.ClampProperties := by
  refine ⟨fun v => ⟨clamp128_clamp128 v, clamp128_le v, clamp128_lt v, fun i => clamp128_getLsbD v, fun i hi hc => ?_⟩,
    by decide, by decide⟩
  rw [clamp128_getLsbD v hi, hc, Bool.not_true, Bool.and_false]

/-- Settles O25: the two outcomes of INIT, each with the engine it leaves. -/
theorem initSetsUpTheKeyOrAborts : Obligations.InitSetsUpTheKeyOrAborts := by
  refine ⟨decodeCommand_word .init, fun s => ⟨fun hk => ?success, fun hk => ?failure⟩⟩
  case success =>
    refine ⟨clamp128 s.engine.rRaw, s.engine.sRaw, ?next, ?words, ?clamped, rfl, joinWords_toNat ..⟩
    case next => rw [exec_init, Engine.init_of_keyLen_eq hk, Engine.abort_latchKey_eq]
    case words => exact (wordSum_clamp ..).symm
    case clamped => rw [clamp128_clamp128]
  case failure =>
    have h := Engine.init_of_keyLen_ne hk
    refine ⟨_, exec_init s, ?aborted, ?status⟩
    case aborted =>
      rw [h]
      rfl
    case status => rw [exec_rd, regAt_two, readReg, h, statusWord_abort_raise]

/-- Settles O26: the second INIT finds the same KEY_LEN and a key it need not clamp. -/
theorem repeatedInitChangesNothing : Obligations.RepeatedInitChangesNothing := by
  intro s t h
  rw [exec_init] at h ⊢
  cases h
  rw [s.engine.init_init]

end Sys2Proof.Proofs
end

section
/-! SUPPORT. ABSORB by its three outcomes, the number of the block it folds, and the bounds of the fold
(42_block_accumulation.md R140 to R144). -/

namespace Sys2Proof.Machine

open Sys2Proof Sys2Proof.Claims

/-! ### The number of the block -/

theorem Engine.blkRaw_toNat (e : Engine) : e.blkRaw.toNat = blkSum e := joinWords_toNat ..

theorem blkSum_lt (e : Engine) : blkSum e < 2 ^ 128 := by
  rw [← e.blkRaw_toNat]
  exact e.blkRaw.isLt

/-- The value the model folds is R140's, of the words in BLK0..BLK3. -/
theorem blockValue_eq_blockNumber (e : Engine) : blockValue e.blkLen.toNat e.blkRaw = blockNumber e := by
  rw [blockValue, e.blkRaw_toNat, blockNumber]

theorem pow_le_blockNumber (e : Engine) : 2 ^ (8 * e.blkLen.toNat) ≤ blockNumber e := Nat.le_add_left ..

theorem blockNumber_lt_pow (e : Engine) : blockNumber e < 2 ^ (8 * e.blkLen.toNat + 1) := by
  have hmod : blkSum e % 2 ^ (8 * e.blkLen.toNat) < 2 ^ (8 * e.blkLen.toNat) := Nat.mod_lt _ (Nat.two_pow_pos _)
  rw [blockNumber, Nat.pow_succ]
  omega

theorem blockNumber_lt {e : Engine} (hl : e.blkLen.toNat ≤ 16) : blockNumber e < 2 ^ 129 :=
  (blockNumber_lt_pow e).trans_le (Nat.pow_le_pow_right Nat.two_pos (by omega))

/-- A block of length 0 has the value 1 whatever BLK0..BLK3 hold. -/
theorem blockNumber_of_blkLen_zero {e : Engine} (hl : e.blkLen = 0) : blockNumber e = 1 := by
  simp [blockNumber, hl, Nat.mod_one]

/-- Only the first BLK_LEN bytes of the block count (R142). -/
theorem blockNumber_with_blk {e : Engine} {b : Vector Word 4}
    (h : wordSum b[0] b[1] b[2] b[3] % 2 ^ (8 * e.blkLen.toNat) = blkSum e % 2 ^ (8 * e.blkLen.toNat)) :
    blockNumber { e with blk := b } = blockNumber e :=
  congrArg (· + 2 ^ (8 * e.blkLen.toNat)) h

/-! ### The outcomes of ABSORB -/

theorem exec_absorb (s : State) : exec .absorb s = .next { s with engine := s.engine.absorb } := exec_command .absorb s

theorem Engine.absorb_of_idle {e : Engine} (h : e.state = .start ∨ e.state = .done) : e.absorb = e.raise .sequence := by
  rw [Engine.absorb, (Lifecycle.not_inMessage_iff _).2 h]
  rfl

theorem Engine.absorb_of_inMessage {e : Engine} (hm : inMessage e) :
    e.absorb = if 16 < e.blkLen.toNat then e.raise .invalidBlockLength
      else { e.foldIn e.blkLen.toNat (blockNumber e) with state := .folding, err := .ok } := by
  rw [Engine.absorb, (Lifecycle.inMessage_iff _).2 hm, blockValue_eq_blockNumber]
  rfl

theorem Engine.absorb_of_tooLong {e : Engine} (hm : inMessage e) (hl : 16 < e.blkLen.toNat) :
    e.absorb = e.raise .invalidBlockLength := by
  rw [absorb_of_inMessage hm, if_pos hl]

theorem Engine.absorb_of_fits {e : Engine} (hm : inMessage e) (hl : e.blkLen.toNat ≤ 16) :
    e.absorb = { e.foldIn e.blkLen.toNat (blockNumber e) with state := .folding, err := .ok } := by
  rw [absorb_of_inMessage hm, if_neg hl.not_gt]

/-- ABSORB with other bytes past BLK_LEN: the checks do not read BLK0..BLK3, and the fold reads the bytes before (R263). -/
theorem Engine.absorb_with_blk {e : Engine} {b : Vector Word 4}
    (h : wordSum b[0] b[1] b[2] b[3] % 2 ^ (8 * e.blkLen.toNat) = blkSum e % 2 ^ (8 * e.blkLen.toNat)) :
    ({ e with blk := b } : Engine).absorb = { e.absorb with blk := b } := by
  obtain ⟨hidle, -⟩ | ⟨hm, hl, -⟩ | ⟨hm, hl, -⟩ := e.absorb_cases
  · rw [absorb_of_idle hidle, absorb_of_idle (e := { e with blk := b }) hidle]
    rfl
  · rw [absorb_of_tooLong hm hl, absorb_of_tooLong (e := { e with blk := b }) hm hl]
    rfl
  · rw [absorb_of_fits hm hl, absorb_of_fits (e := { e with blk := b }) hm hl, blockNumber_with_blk h]
    rfl

/-! ### The fold -/

theorem Engine.Inv.r_lt {e : Engine} (he : e.Inv) (hm : inMessage e) : e.r.toNat < 2 ^ 124 := by
  rw [he.rClamped hm]
  exact clamp128_lt _

theorem acc_add_blockNumber_lt {e : Engine} (hl : e.blkLen.toNat ≤ 16) :
    e.acc.toNat + blockNumber e < 2 ^ 131 := by
  have hacc : e.acc.toNat < 2 ^ 130 := e.acc.isLt
  have hn := blockNumber_lt hl
  omega

theorem foldBlock_zero_one (r : BitVec 128) : (foldBlock 0 r 1).toNat = r.toNat := by
  have hr : r.toNat < P := r.isLt.trans (by decide)
  simp [foldBlock_toNat, Nat.mod_eq_of_lt hr]

theorem foldBlock_of_r_zero (acc : BitVec 130) (n : Nat) : foldBlock acc 0 n = 0 := by
  simp [foldBlock]

end Sys2Proof.Machine
end

section
/-! PROOFS. The statements of 42_block_accumulation.md: what ABSORB folds, its bounds, and the bytes it does not read. -/

namespace Sys2Proof.Proofs

open Sys2Proof Sys2Proof.Machine Sys2Proof.Claims

/-- Settles O27: the three outcomes of ABSORB, each with the engine it leaves. -/
theorem absorbFoldsTheBlock : Obligations.AbsorbFoldsTheBlock := by
  refine ⟨decodeCommand_word .absorb, fun s => ⟨fun hm hl => ?folds, fun hidle => ?sequence, fun hm hl => ?tooLong⟩⟩
  case folds =>
    refine ⟨foldBlock s.engine.acc s.engine.r (blockNumber s.engine), s.engine.blkCnt + 1,
      BitVec.ofNat 5 s.engine.blkLen.toNat, ?next, foldBlock_toNat .., BitVec.toNat_add .., ?len⟩
    case next =>
      rw [exec_absorb, Engine.absorb_of_fits hm hl]
      rfl
    case len => rw [BitVec.toNat_ofNat, Nat.mod_eq_of_lt (by omega)]
  case sequence =>
    rw [exec_absorb, Engine.absorb_of_idle hidle]
    rfl
  case tooLong =>
    rw [exec_absorb, Engine.absorb_of_tooLong hm hl]
    rfl

/-- Settles O28: the block value has its top bit at 2^(8l), ACC is below 2^130 and a clamped R below 2^124. -/
theorem absorbIntermediatesStayBounded : Obligations.AbsorbIntermediatesStayBounded := by
  intro s t hinv hm hl h
  have hsum := acc_add_blockNumber_lt hl
  refine ⟨blkSum_lt _, pow_le_blockNumber _, blockNumber_lt_pow _, hsum, ?product, ?reduced⟩
  case product =>
    calc (s.engine.acc.toNat + blockNumber s.engine) * s.engine.r.toNat
      _ < 2 ^ 131 * 2 ^ 124 := Nat.mul_lt_mul'' hsum (hinv.r_lt hm)
      _ = 2 ^ 255 := (Nat.pow_add ..).symm
  case reduced =>
    rw [exec_engine h]
    exact (hinv.effect .absorb).accBelowP

/-- Settles O29: no outcome of ABSORB reads the bytes past BLK_LEN, and none writes BLK0..BLK3. -/
theorem absorbIgnoresBytesPastTheLength : Obligations.AbsorbIgnoresBytesPastTheLength := by
  intro s t b hb h
  rw [exec_absorb] at h ⊢
  cases h
  rw [Engine.absorb_with_blk hb]

/-- Settles O30: KEY_READY holds ACC = 0, and the empty block has the value 1; with R = 0 the product is 0. -/
theorem absorbCornerValues : Obligations.AbsorbCornerValues := by
  refine ⟨fun s hinv hready hl => ⟨_, exec_absorb s, ?empty⟩, fun s hm hl hr => ⟨_, exec_absorb s, ?zeroR⟩⟩
  case empty =>
    have hacc : s.engine.acc = 0 := (hinv.keyReadyZero hready).1
    have hfits : s.engine.blkLen.toNat ≤ 16 := by simp [hl]
    rw [Engine.absorb_of_fits (.inl hready) hfits, blockNumber_of_blkLen_zero hl, Engine.foldIn_acc, hacc, foldBlock_zero_one]
  case zeroR =>
    rw [Engine.absorb_of_fits hm hl, Engine.foldIn_acc, hr, foldBlock_of_r_zero]
    exact ⟨rfl, rfl⟩

end Sys2Proof.Proofs
end

section
/-! SUPPORT. FINAL by its outcomes, the pad decision of each policy, and the tag as words and as bytes
(43_finalize.md R160 to R164). -/

namespace Sys2Proof.Machine

open Sys2Proof Sys2Proof.Claims

/-! ### The pad decision -/

/-- The model's pad decision is the one R160 writes. -/
theorem padNeeded_eq_true_iff_pads (e : Engine) : padNeeded e = true ↔ pads e := padNeeded_iff e

theorem pads_iff_of_design {e : Engine} (h : e.policy = .design) : pads e ↔ e.state = .keyReady := by
  simp [pads, h]

theorem pads_iff_of_reference {e : Engine} (h : e.policy = .reference) :
    pads e ↔ e.state = .keyReady ∨ e.lastLen.toNat = 16 := by
  have hlen : e.lastLen.toNat = 16 ↔ e.lastLen = 16 := BitVec.toNat_inj (y := 16)
  simp [pads, h, hlen]

theorem not_pads_of_standard {e : Engine} (h : e.policy = .standard) : ¬pads e := by
  simp [pads, h]

/-- The empty message is padded by every policy but STANDARD (R164 (c)). -/
theorem pads_of_keyReady {e : Engine} (hs : e.state = .keyReady) (hp : e.policy ≠ .standard) : pads e := by
  cases h : e.policy with
  | design => exact .inl ⟨h, hs⟩
  | reference => exact .inr ⟨h, .inl hs⟩
  | standard => exact absurd h hp

/-! ### The engine after the pad decision -/

theorem Engine.pad_of_pads {e : Engine} (h : pads e) : e.pad = e.foldIn 0 1 :=
  if_pos ((padNeeded_eq_true_iff_pads e).2 h)

theorem Engine.pad_of_not_pads {e : Engine} (h : ¬pads e) : e.pad = e :=
  if_neg (mt (padNeeded_eq_true_iff_pads e).1 h)

/-- The accumulator after a pad block, a block of value 1 (R160). -/
theorem Engine.pad_acc_toNat_of_pads {e : Engine} (h : pads e) : e.pad.acc.toNat = (e.acc.toNat + 1) * e.r.toNat % P := by
  rw [pad_of_pads h, Engine.foldIn_acc, foldBlock_toNat]

/-- BLKCNT counts the pad block, under any wording `p` of the pad decision. -/
theorem Engine.pad_blkCnt {e : Engine} {p : Prop} [Decidable p] (h : pads e ↔ p) :
    e.pad.blkCnt = if p then e.blkCnt + 1 else e.blkCnt := by
  split
  · rw [pad_of_pads (h.2 ‹p›), Engine.foldIn_blkCnt]
  · rw [pad_of_not_pads (mt h.1 ‹¬p›)]

/-- Padding touches ACC, BLKCNT and LAST_LEN only. -/
theorem Engine.pad_eq (e : Engine) :
    e.pad = { e with acc := e.pad.acc, blkCnt := e.pad.blkCnt, lastLen := e.pad.lastLen } := by
  by_cases h : pads e
  · rw [pad_of_pads h]
    rfl
  · rw [pad_of_not_pads h]

/-! ### The outcomes of FINAL -/

theorem exec_final (s : State) : exec .final s = .next { s with engine := s.engine.final } := exec_command .final s

theorem Engine.final_of_idle {e : Engine} (h : e.state = .start ∨ e.state = .done) : e.final = e.raise .sequence := by
  rw [Engine.final, (Lifecycle.not_inMessage_iff _).2 h]
  rfl

/-- FINAL in a message: the whole engine it leaves, by the registers after the pad decision. -/
theorem Engine.final_of_inMessage {e : Engine} (hm : inMessage e) :
    e.final = { e with
      tag := splitWords (tagSum e.pad.acc e.s), blkCnt := e.pad.blkCnt, lastLen := e.pad.lastLen, r := 0, s := 0, acc := 0,
      state := .done, err := .ok } :=
  calc e.final = e.pad.writeTag := by rw [Engine.final, (Lifecycle.inMessage_iff _).2 hm]; rfl
    _ = _ := by rw [e.pad_eq]; rfl

/-! ### The tag -/

theorem wordSum_splitWords (t : BitVec 128) :
    wordSum (splitWords t)[0] (splitWords t)[1] (splitWords t)[2] (splitWords t)[3] = t.toNat := by
  rw [wordSum, ← joinWords_toNat, joinWords_splitWords]

/-- The bytes of TAG0..TAG3 are the little-endian bytes of the tag (R162). -/
theorem groupBytes_splitWords (t : BitVec 128) : groupBytes (splitWords t) = leBytes t.toNat 16 := by
  have hnumber : le (groupBytes (splitWords t)) = t.toNat := (le_groupBytes_four ..).trans (wordSum_splitWords t)
  have hbytes := leBytes_le (groupBytes (splitWords t))
  rw [length_groupBytes, hnumber] at hbytes
  exact hbytes.symm

/-- Of the commands, only FINAL computes a tag: CLAMP and ABSORB keep the tag, INIT and CLEAR zero it (R164 (h)). -/
theorem Engine.command_tag_cases {c : Command} (hc : c ≠ .final) (e : Engine) :
    (e.command c).tag = e.tag ∨ (e.command c).tag = Vector.replicate 4 0 := by
  cases c with
  | clamp => exact .inl rfl
  | init => obtain ⟨-, h⟩ | ⟨-, h⟩ := e.init_cases <;> exact .inr (by simp [Engine.command, h])
  | absorb => obtain ⟨-, h⟩ | ⟨-, -, h⟩ | ⟨-, -, h⟩ := e.absorb_cases <;> exact .inl (by simp [Engine.command, h])
  | final => exact absurd rfl hc
  | clear => exact .inr rfl

end Sys2Proof.Machine
end

section
/-! PROOFS. The statements of 43_finalize.md: the pad block of each policy, the tag, and what FINAL consumes. -/

namespace Sys2Proof.Proofs

open Sys2Proof Sys2Proof.Machine Sys2Proof.Claims

/-- Settles O31: in a message the registers after the pad decision give the tag, and elsewhere FINAL raises SEQUENCE. -/
theorem finalWritesTheTag : Obligations.FinalWritesTheTag := by
  refine ⟨decodeCommand_word .final, fun s => ⟨fun hm => ?message, fun hidle => ?sequence⟩⟩
  case message =>
    refine ⟨splitWords (tagSum s.engine.pad.acc s.engine.s), s.engine.pad.blkCnt, s.engine.pad.lastLen,
      s.engine.pad.acc.toNat, ?next, fun hp => ?padded, fun hp => ?unpadded, fun i => ?words⟩
    case next => rw [exec_final, Engine.final_of_inMessage hm]
    case padded =>
      refine ⟨Engine.pad_acc_toNat_of_pads hp, ?_⟩
      rw [Engine.pad_of_pads hp]
      exact ⟨BitVec.toNat_add .., rfl⟩
    case unpadded =>
      rw [Engine.pad_of_not_pads hp]
      exact ⟨rfl, rfl, rfl⟩
    case words => rw [splitWords_get, tagSum_toNat]
  case sequence =>
    rw [exec_final, Engine.final_of_idle hidle]
    rfl

/-- Settles O32: BLKCNT counts the pad block, and each policy has its wording of the pad decision. -/
theorem padBlockFollowsThePolicy : Obligations.PadBlockFollowsThePolicy := by
  refine fun s hm => ⟨_, exec_final s, ?_⟩
  rw [Engine.final_of_inMessage hm]
  refine ⟨fun h => Engine.pad_blkCnt (pads_iff_of_design h), fun h => Engine.pad_blkCnt (pads_iff_of_reference h), fun h => ?_⟩
  rw [Engine.pad_of_not_pads (not_pads_of_standard h)]

/-- Settles O33: the tag words are those of the 128-bit sum, whose bytes they hold. -/
theorem tagBytesAreLittleEndian : Obligations.TagBytesAreLittleEndian := by
  refine fun s hm => ⟨_, s.engine.pad.acc.toNat, exec_final s, Engine.pad_acc_toNat_of_pads, fun hp => ?unpadded, ?bytes⟩
  case unpadded => rw [Engine.pad_of_not_pads hp]
  case bytes => rw [Engine.final_of_inMessage hm, groupBytes_splitWords, tagSum_toNat]

/-- Settles O34: FINAL enters DONE, where ABSORB and FINAL raise SEQUENCE. -/
theorem finalConsumesTheAccumulator : Obligations.FinalConsumesTheAccumulator := by
  refine fun s hm => ⟨_, exec_final s, ?_⟩
  rw [Engine.final_of_inMessage hm]
  refine ⟨rfl, rfl, rfl, rfl, rfl, rfl, rfl, rfl, rfl, ?absorb, ?final⟩
  case absorb =>
    rw [exec_absorb, Engine.absorb_of_idle (.inr rfl)]
    rfl
  case final =>
    rw [exec_final, Engine.final_of_idle (.inr rfl)]
    rfl

/-- Settles O35: KEY_READY holds ACC = 0, so the pad block, where the policy has one, leaves ACC = R. -/
theorem emptyMessageTag : Obligations.EmptyMessageTag := by
  intro s hinv hready
  obtain ⟨hacc, hcnt, hlen⟩ := hinv.keyReadyZero hready
  refine ⟨_, exec_final s, ?_⟩
  rw [Engine.final_of_inMessage (.inl hready), wordSum_splitWords, tagSum_toNat]
  by_cases hp : s.engine.policy = .standard
  · rw [Engine.pad_of_not_pads (not_pads_of_standard hp), if_pos hp, if_pos hp, hacc]
    exact ⟨hlen, by simp [Nat.mod_eq_of_lt s.engine.s.isLt], hcnt⟩
  · rw [Engine.pad_of_pads (pads_of_keyReady hready hp), if_neg hp, if_neg hp, Engine.foldIn_acc, hacc, foldBlock_zero_one]
    exact ⟨rfl, rfl, by simp [hcnt]⟩

/-- Settles O44: a command but FINAL keeps the tag or zeroes it, and what is no command moves no register of the message. -/
theorem onlyFinalWritesANonzeroTag : Obligations.OnlyFinalWritesANonzeroTag := by
  intro i s t hwf h hfinal
  rw [exec_engine h]
  obtain ⟨c, hc, hname⟩ | hsame := s.engine.effect_command_or_sameMessage i
  · rw [hc]
    refine Engine.command_tag_cases ?_ s.engine
    rintro rfl
    exact hfinal (hname hwf)
  · exact .inl hsame.tag

end Sys2Proof.Proofs
end

section
/-! SUPPORT. The engine after CLEAR and after a command word that the opcode map reserves (44_control.md R180, R181). -/

namespace Sys2Proof.Machine

open Sys2Proof

theorem exec_clear (s : State) : exec .clear s = .next { s with engine := s.engine.clear } := exec_command .clear s

/-- CLEAR overwrites every register but CTRL, so POLICY is all that it keeps. -/
theorem Engine.clear_eq_reset (e : Engine) : e.clear = { Engine.reset with policy := e.policy } := rfl

theorem Engine.commandWord_of_reserved {w : Word} (h : w.toNat = 0 ∨ 6 ≤ w.toNat) (e : Engine) : e.commandWord w = e.illegal := by
  rw [Engine.commandWord, (decodeCommand_eq_none_iff w).2 h]

/-- A write to CMD runs the word it carries (R101). -/
theorem exec_wr_cmd (w : Word) (s : State) :
    exec (.wr cmdOffset w) s = .next { s with engine := s.engine.commandWord w } := by
  rw [exec_wr, regAt_cmdOffset, writeReg]

end Sys2Proof.Machine
end

section
/-! PROOFS. The statements of 44_control.md: CLEAR, and the reserved command words. -/

namespace Sys2Proof.Proofs

open Sys2Proof Sys2Proof.Machine Sys2Proof.Claims

/-- Settles O37: a reserved word is no command, so the write to CMD raises ILLEGAL_COMMAND on the engine as it was. -/
theorem reservedWordsReportIllegalCommand : Obligations.ReservedWordsReportIllegalCommand := by
  intro s w hreserved
  calc exec (.wr 3 w) s = .next { s with engine := s.engine.commandWord w } := exec_wr_cmd w s
    _ = .next { s with engine := s.engine.illegal } := by rw [Engine.commandWord_of_reserved hreserved]
    _ = .next { s with engine := { s.engine with err := .illegalCommand } } := rfl

/-- Settles O36: CLEAR's word is 5, and the engine it leaves is that of reset under the old POLICY. -/
theorem clearIsResetExceptPolicy : Obligations.ClearIsResetExceptPolicy := by
  refine ⟨decodeCommand_word .clear, fun s => ?_⟩
  rw [exec_clear, s.engine.clear_eq_reset]

end Sys2Proof.Proofs
end

section
/-! SUPPORT. The base partition of a message by its full chunks and its tail, and the last chunk that each policy adds
(45_message_sequence.md R201). -/

namespace Sys2Proof.Machine

open Sys2Proof

/-! ### The full chunks -/

/-- Consecutive pieces of `n` bytes join to the bytes they cover. -/
theorem flatten_pieces (n q : Nat) (b : List Byte) :
    ((List.range q).map fun i => (b.drop (n * i)).take n).flatten = b.take (n * q) := by
  induction q with
  | zero => simp
  | succ q ih =>
    rw [List.range_succ, List.map_append, List.flatten_append, ih, Nat.mul_succ, List.take_add, List.map_singleton,
      List.flatten_singleton]

/-- The 16-byte chunks of the base partition. -/
def fullChunks (m : List Byte) : List (List Byte) := (List.range (m.length / 16)).map fun i => (m.drop (16 * i)).take 16

@[simp] theorem length_fullChunks (m : List Byte) : (fullChunks m).length = m.length / 16 := by
  simp [fullChunks]

theorem length_of_mem_fullChunks {m c : List Byte} (h : c ∈ fullChunks m) : c.length = 16 := by
  obtain ⟨i, hi, rfl⟩ := List.mem_map.1 h
  rw [List.mem_range] at hi
  rw [List.length_take, List.length_drop]
  omega

/-! ### The base partition -/

variable {m : List Byte}

theorem baseChunks_of_mod_eq_zero (h : m.length % 16 = 0) : baseChunks m = fullChunks m := by
  simp [baseChunks, fullChunks, h]

theorem baseChunks_of_mod_ne_zero (h : m.length % 16 ≠ 0) :
    baseChunks m = fullChunks m ++ [m.drop (16 * (m.length / 16))] := by
  simp [baseChunks, fullChunks, Nat.pos_of_ne_zero h]

/-- The tail has the bytes that the full chunks leave. -/
theorem length_tailChunk (m : List Byte) : (m.drop (16 * (m.length / 16))).length = m.length % 16 := by
  rw [List.length_drop]
  omega

theorem flatten_baseChunks (m : List Byte) : (baseChunks m).flatten = m := by
  have hfull : (fullChunks m).flatten = m.take (16 * (m.length / 16)) := flatten_pieces 16 _ m
  by_cases h : m.length % 16 = 0
  · rw [baseChunks_of_mod_eq_zero h, hfull, List.take_of_length_le (by omega)]
  · rw [baseChunks_of_mod_ne_zero h, List.flatten_append, hfull, List.flatten_singleton, List.take_append_drop]

theorem length_baseChunks (m : List Byte) : (baseChunks m).length = (m.length + 15) / 16 := by
  by_cases h : m.length % 16 = 0
  · rw [baseChunks_of_mod_eq_zero h, length_fullChunks]
    omega
  · rw [baseChunks_of_mod_ne_zero h, List.length_append, length_fullChunks, List.length_singleton]
    omega

theorem length_of_mem_baseChunks {c : List Byte} (hc : c ∈ baseChunks m) : 1 ≤ c.length ∧ c.length ≤ 16 := by
  by_cases h : m.length % 16 = 0
  · rw [baseChunks_of_mod_eq_zero h] at hc
    have := length_of_mem_fullChunks hc
    omega
  · rw [baseChunks_of_mod_ne_zero h, List.mem_append, List.mem_singleton] at hc
    obtain hc | rfl := hc
    · have := length_of_mem_fullChunks hc
      omega
    · rw [length_tailChunk]
      omega

theorem length_of_mem_dropLast_baseChunks {c : List Byte} (hc : c ∈ (baseChunks m).dropLast) : c.length = 16 := by
  by_cases h : m.length % 16 = 0
  · rw [baseChunks_of_mod_eq_zero h] at hc
    exact length_of_mem_fullChunks (List.mem_of_mem_dropLast hc)
  · rw [baseChunks_of_mod_ne_zero h, List.dropLast_concat] at hc
    exact length_of_mem_fullChunks hc

theorem baseChunks_eq_nil_iff (m : List Byte) : baseChunks m = [] ↔ m.length = 0 := by
  rw [← List.length_eq_zero_iff, length_baseChunks]
  omega

/-- The last chunk of the base partition has 16 bytes exactly when the length is a multiple of 16. -/
theorem length_getLast_baseChunks {c : List Byte} (hc : (baseChunks m).getLast? = some c) :
    c.length = 16 ↔ m.length % 16 = 0 := by
  by_cases h : m.length % 16 = 0
  · rw [baseChunks_of_mod_eq_zero h] at hc
    exact iff_of_true (length_of_mem_fullChunks (List.mem_of_getLast? hc)) h
  · rw [baseChunks_of_mod_ne_zero h, List.getLast?_concat, Option.some.injEq] at hc
    rw [← hc, length_tailChunk]
    omega

/-! ### The chunk lists of the policies -/

/-- The messages whose chunk list ends in an empty chunk (R201). -/
def EndsInPad (m : List Byte) : Policy → Prop
  | .design => m.length = 0
  | .reference => m.length % 16 = 0
  | .standard => False

theorem chunks_of_endsInPad {pol : Policy} (h : EndsInPad m pol) : chunks pol m = baseChunks m ++ [[]] := by
  cases pol with
  | design => simp only [chunks, if_pos (show m.length = 0 from h)]
  | reference => simp only [chunks, if_pos (show m.length % 16 = 0 from h)]
  | standard => exact h.elim

theorem chunks_of_not_endsInPad {pol : Policy} (h : ¬EndsInPad m pol) : chunks pol m = baseChunks m := by
  cases pol with
  | design => simp only [chunks, if_neg (show ¬m.length = 0 from h), List.append_nil]
  | reference => simp only [chunks, if_neg (show ¬m.length % 16 = 0 from h), List.append_nil]
  | standard => rfl

theorem length_chunks_design (m : List Byte) : (chunks .design m).length = max 1 ((m.length + 15) / 16) := by
  by_cases h : m.length = 0
  · rw [chunks_of_endsInPad (pol := .design) h, List.length_append, length_baseChunks, List.length_singleton]
    omega
  · rw [chunks_of_not_endsInPad (pol := .design) h, length_baseChunks]
    omega

/-- The REFERENCE list as the reference code forms it: the last piece is the tail, or empty at a multiple of 16. -/
theorem chunks_reference (m : List Byte) :
    chunks .reference m = (List.range (m.length / 16 + 1)).map (fun i => (m.drop (16 * i)).take 16) := by
  have hlast : (List.range (m.length / 16 + 1)).map (fun i => (m.drop (16 * i)).take 16) =
      fullChunks m ++ [m.drop (16 * (m.length / 16))] := by
    rw [List.range_succ, List.map_append, List.map_singleton, List.take_of_length_le (by rw [length_tailChunk]; omega)]
    rfl
  rw [hlast]
  by_cases h : m.length % 16 = 0
  · rw [chunks_of_endsInPad (pol := .reference) h, baseChunks_of_mod_eq_zero h, List.drop_of_length_le (by omega)]
  · rw [chunks_of_not_endsInPad (pol := .reference) h, baseChunks_of_mod_ne_zero h]

end Sys2Proof.Machine
end

section
/-! SUPPORT. Runs that end with a read, the engine after the protocol's setup, the pad block at the end of the host's loop, and
the loop on an idle engine (45_message_sequence.md R202 to R204). -/

namespace Sys2Proof.Machine

open Sys2Proof Sys2Proof.Claims

/-! ### Runs -/

/-- A run that comes to its end begins with a step that answers a next state. -/
theorem run_succ_inv {n : Nat} {s t : State} (h : Host.Core.run core (n + 1) s = .next t) :
    ∃ u, step s = .next u ∧ Host.Core.run core n u = .next t := by
  cases hstep : step s with
  | next u => exact ⟨u, rfl, (run_succ hstep).symm.trans h⟩
  | fault r => cases r
  | refused r =>
    have hrun := Host.Core.run.eq_2 core s n
    rw [show core.step s = .refused r from hstep] at hrun
    cases hrun.symm.trans h

/-- A run cut after its first steps. -/
theorem run_add {n k : Nat} {s t : State} (h : Host.Core.run core n s = .next t) :
    Host.Core.run core (n + k) s = Host.Core.run core k t := by
  induction n generalizing s with
  | zero =>
    cases h
    rw [Nat.zero_add]
  | succ n ih =>
    obtain ⟨u, hstep, hrun⟩ := run_succ_inv h
    rw [Nat.add_right_comm, run_succ hstep, ih hrun]

/-- A run of the accesses `as` alone. -/
theorem run_withAccesses {as : List BusAccess} (h : Served as) (s : State) :
    ∃ t : State, Host.Core.run core as.length (withAccesses s as) = .next t ∧ t.engine = s.engine.accesses as ∧ t.inputs = [] :=
  run_accesses h _ [] (List.append_nil _).symm

/-- A run that ends with a read of STATUS returns the STATUS word of the engine it leaves. -/
theorem run_withAccesses_rdStat {as : List BusAccess} (h : Served as) (s : State) :
    ∃ t : State, Host.Core.run core (as ++ rdStat).length (withAccesses s (as ++ rdStat)) = .next t ∧
      t.response = some (statusWord (s.engine.accesses as)) := by
  obtain ⟨u, hrun, hengine, hinputs⟩ :=
    run_accesses h (withAccesses s (as ++ rdStat)) [.access (rdAt 0x08)] (List.map_append ..)
  have hd : decodeAccess (rdAt 0x08) = .instr (.rd 2) := decodeAccess_readOffset 2
  have hlast : Host.Core.run core 1 u = .next { u with inputs := [], response := some (statusWord u.engine) } :=
    run_succ (by rw [step_of_access hinputs, serve_instr hd, exec_rd, regAt_two, readReg])
  rw [List.length_append]
  exact ⟨_, (run_add hrun).trans hlast, congrArg (fun e => some (statusWord e)) hengine⟩

/-! ### The key the host loads -/

/-- KEY0..KEY7 loaded from a byte string. -/
def keyWords (b : List Byte) : Vector Word 8 :=
  #v[wordAt b 0, wordAt b 1, wordAt b 2, wordAt b 3, wordAt b 4, wordAt b 5, wordAt b 6, wordAt b 7]

/-- The bytes of a loaded word are the four bytes it was loaded from. -/
theorem leBytes_wordAt {b : List Byte} {i : Nat} (h : 4 * i + 4 ≤ b.length) :
    leBytes (wordAt b i).toNat 4 = (b.drop (4 * i)).take 4 := by
  have hbytes := leBytes_le ((b.drop (4 * i)).take 4)
  rwa [List.length_take, List.length_drop, Nat.min_eq_left (by omega), ← wordAt_toNat] at hbytes

/-- 32 bytes loaded into KEY0..KEY7 read back from them. -/
theorem groupBytes_keyWords {b : List Byte} (h : b.length = 32) : groupBytes (keyWords b) = b := by
  have hwords : (keyWords b).toList = (List.range 8).map (wordAt b) := rfl
  have hpieces : (List.range 8).map (fun i => leBytes (wordAt b i).toNat 4) =
      (List.range 8).map fun i => (b.drop (4 * i)).take 4 :=
    List.map_congr_left fun i hi => leBytes_wordAt (by rw [List.mem_range] at hi; omega)
  rw [groupBytes, hwords, List.flatMap_map, List.flatMap_def, hpieces, flatten_pieces, List.take_of_length_le h.le]

/-- KEY0..KEY3 hold the number of the first 16 bytes loaded. -/
theorem joinWords_keyWords_low {b : List Byte} (h : b.length = 32) :
    joinWords (keyWords b)[0] (keyWords b)[1] (keyWords b)[2] (keyWords b)[3] = BitVec.ofNat 128 (le (b.take 16)) := by
  have hlow := joinWords_wordAt b 0 (by omega)
  rw [Nat.mul_zero, List.drop_zero] at hlow
  rw [← hlow, BitVec.ofNat_toNat, BitVec.setWidth_eq]
  rfl

/-- KEY4..KEY7 hold the number of the other 16. -/
theorem joinWords_keyWords_high {b : List Byte} (h : b.length = 32) :
    joinWords (keyWords b)[4] (keyWords b)[5] (keyWords b)[6] (keyWords b)[7] = BitVec.ofNat 128 (le (b.drop 16)) := by
  have hhigh := joinWords_wordAt b 1 (by omega)
  rw [Nat.mul_one, List.take_of_length_le (by rw [List.length_drop]; omega)] at hhigh
  rw [← hhigh, BitVec.ofNat_toNat, BitVec.setWidth_eq]
  rfl

/-- The second half of a 32-byte key fits S. -/
theorem toNat_ofNat_le_drop {b : List Byte} (h : b.length = 32) : (BitVec.ofNat 128 (le (b.drop 16))).toNat = le (b.drop 16) := by
  have hlt := le_lt (b.drop 16)
  rw [List.length_drop, h] at hlt
  rw [BitVec.toNat_ofNat, Nat.mod_eq_of_lt hlt]

/-- The bytes LDKEYN loads: at most 32 of the key, padded with zeros (R77). -/
theorem padBytes_take_key (k : List Byte) :
    padBytes 32 (k.take (min k.length 32)) = k.take 32 ++ List.replicate (32 - k.length) 0 := by
  have htake : k.take (min k.length 32) = k.take 32 := by
    rw [Nat.min_comm, ← List.take_take, List.take_length]
  have hlen : 32 - (k.take 32).length = 32 - k.length := by
    rw [List.length_take]
    omega
  rw [htake, padBytes, hlen]

/-- The engine that INIT finds, and what INIT makes of it. -/
theorem Engine.accesses_setup (pol : Policy) (k : List Byte) (e : Engine) :
    e.accesses (setPol pol ++ ldKeyN k ++ cmd .init) =
      Engine.init { e with
        policy := pol, key := keyWords (k.take 32 ++ List.replicate (32 - k.length) 0), keyLen := BitVec.ofNat 32 k.length } := by
  simp only [Engine.accesses_append, accesses_setPol, accesses_ldKeyN, accesses_cmd, padBytes_take_key]
  rfl

/-- The engine set up with a 32-byte key: R is the clamped number of its first half, and S the number of the other (R123, R124). -/
def Engine.keyed (pol : Policy) (k : List Byte) (e : Engine) : Engine :=
  { e with
    policy := pol, key := clampedKey (keyWords k), keyLen := 32
    r := clamp128 (BitVec.ofNat 128 (le (k.take 16))), s := BitVec.ofNat 128 (le (k.drop 16)), acc := 0
    tag := Vector.replicate 4 0, blkCnt := 0, lastLen := 0, state := .keyReady, err := .ok }

theorem Engine.accesses_setup_of_length_eq {k : List Byte} (hk : k.length = 32) (pol : Policy) (e : Engine) :
    e.accesses (setPol pol ++ ldKeyN k ++ cmd .init) = e.keyed pol k := by
  have hkey : k.take 32 ++ List.replicate (32 - k.length) 0 = k := by
    rw [List.take_of_length_le hk.le, hk, Nat.sub_self, List.replicate_zero, List.append_nil]
  rw [accesses_setup, hkey, hk, init_of_keyLen_eq rfl, abort_latchKey_eq, keyed, ← joinWords_keyWords_low hk,
    ← joinWords_keyWords_high hk]
  rfl

/-- A key of another length is refused: the message is aborted and the key stays as loaded (R125). -/
theorem Engine.accesses_setup_of_length_ne {k : List Byte} (hk : k.length ≠ 32) (hlt : k.length < 2 ^ 32) (pol : Policy)
    (e : Engine) :
    e.accesses (setPol pol ++ ldKeyN k ++ cmd .init) =
      Engine.raise .invalidKeyLength (Engine.abort { e with
        policy := pol, key := keyWords (k.take 32 ++ List.replicate (32 - k.length) 0)
        keyLen := BitVec.ofNat 32 k.length }) := by
  rw [accesses_setup, init_of_keyLen_ne]
  rwa [BitVec.toNat_ofNat, Nat.mod_eq_of_lt hlt]

/-- The protocol: set up, feed the base partition, finish. The reads change nothing. -/
theorem Engine.accesses_protocol (pol : Policy) (m k : List Byte) (e : Engine) :
    e.accesses (protocol pol m k) =
      ((e.accesses (setPol pol ++ ldKeyN k ++ cmd .init)).accesses ((baseChunks m).flatMap absChunk)).final := by
  rw [protocol, accesses_append, accesses_rdTag, accesses_append, accesses_cmd, accesses_append, accesses_append _ rdStat,
    accesses_rdStat, Engine.command]

/-! ### The pad block after the host's loop -/

section
variable {m : List Byte} {e e' : Engine} (h : Folded (baseChunks m) e e') (hs : e.state = .keyReady)
include h hs

theorem Folded.inMessage : inMessage e' := by
  rw [Claims.inMessage, h.state]
  split
  · exact .inl hs
  · exact .inr rfl

/-- STATE tells whether the host's loop absorbed anything. -/
theorem Folded.state_eq_keyReady_iff : e'.state = .keyReady ↔ m.length = 0 := by
  rw [h.state, ← baseChunks_eq_nil_iff]
  split <;> simp [*]

/-- From an engine just set up, LAST_LEN tells whether the message ended in a full chunk. -/
theorem Folded.fullEnd_iff : e'.state = .keyReady ∨ e'.lastLen.toNat = 16 ↔ m.length % 16 = 0 := by
  by_cases hnil : m.length = 0
  · simp [h.state_eq_keyReady_iff hs, hnil]
  · obtain ⟨c, hc⟩ := Option.ne_none_iff_exists'.1
      (mt List.getLast?_eq_none_iff.1 (mt (baseChunks_eq_nil_iff m).1 hnil))
    have hle := (length_of_mem_baseChunks (List.mem_of_getLast? hc)).2
    have hlen : e'.lastLen.toNat = c.length := by
      rw [h.lastLen, hc, Option.map_some, Option.getD_some, BitVec.toNat_ofNat]
      omega
    rw [h.state_eq_keyReady_iff hs, hlen, length_getLast_baseChunks hc]
    simp [hnil]

/-- FINAL's pad decision is R201's: it pads where the policy's chunk list ends in an empty chunk. -/
theorem Folded.pads_iff_endsInPad : pads e' ↔ EndsInPad m e.policy := by
  cases hp : e.policy with
  | design => exact (pads_iff_of_design (h.policy.trans hp)).trans (h.state_eq_keyReady_iff hs)
  | reference => exact (pads_iff_of_reference (h.policy.trans hp)).trans (h.fullEnd_iff hs)
  | standard => exact iff_of_false (not_pads_of_standard (h.policy.trans hp)) id

/-- After the pad decision the accumulator holds the fold of the policy's chunk list. -/
theorem Folded.pad_acc : e'.pad.acc.toNat = (chunks e.policy m).foldl (foldChunk e.r.toNat) e.acc.toNat := by
  by_cases hp : pads e'
  · rw [Engine.pad_acc_toNat_of_pads hp, chunks_of_endsInPad ((h.pads_iff_endsInPad hs).1 hp), List.foldl_append, ← h.acc, h.r]
    rfl
  · rw [Engine.pad_of_not_pads hp, chunks_of_not_endsInPad (mt (h.pads_iff_endsInPad hs).2 hp), h.acc]

/-- After the pad decision BLKCNT counts the policy's chunk list. -/
theorem Folded.pad_blkCnt : e'.pad.blkCnt = e.blkCnt + BitVec.ofNat 32 (chunks e.policy m).length := by
  by_cases hp : pads e'
  · rw [Engine.pad_of_pads hp, chunks_of_endsInPad ((h.pads_iff_endsInPad hs).1 hp), Engine.foldIn_blkCnt, h.blkCnt,
      List.length_append, BitVec.ofNat_add, BitVec.add_assoc]
    rfl
  · rw [Engine.pad_of_not_pads hp, chunks_of_not_endsInPad (mt (h.pads_iff_endsInPad hs).2 hp), h.blkCnt]

end

/-- The function of R200 where the key has its 32 bytes. -/
theorem poly1305_of_length_eq {k : List Byte} (hk : k.length = 32) (pol : Policy) (m : List Byte) :
    poly1305 pol m k = .ok (leBytes
      (((chunks pol m).foldl (foldChunk (clamp128 (BitVec.ofNat 128 (le (k.take 16)))).toNat) 0 + le (k.drop 16)) % 2 ^ 128)
      16) :=
  if_neg (not_not.2 hk)

/-! ### The host's loop on an idle engine -/

/-- Out of a message the loop writes BLK0..BLK3 and BLK_LEN, and each ABSORB only raises SEQUENCE (R204). -/
theorem Engine.accesses_absChunks_of_idle (cs : List (List Byte)) {e : Engine} (h : e.state = .start ∨ e.state = .done) :
    ∃ blk blkLen err, e.accesses (cs.flatMap absChunk) = { e with blk := blk, blkLen := blkLen, err := err } := by
  induction cs generalizing e with
  | nil => exact ⟨e.blk, e.blkLen, e.err, rfl⟩
  | cons c cs ih =>
    have hchunk : e.accesses (absChunk c) = { e.accesses (ldBlk c) with err := .sequence } := by
      rw [absChunk, accesses_append, accesses_cmd, accesses_ldBlk]
      exact absorb_of_idle h
    rw [List.flatMap_cons, accesses_append, hchunk, accesses_ldBlk]
    exact ih (e := { e with blk := _, blkLen := _, err := _ }) h

end Sys2Proof.Machine
end

section
/-! PROOFS. The statements of 45_message_sequence.md: the chunk lists, and the protocol with a key of 32 bytes and of any other
length. -/

namespace Sys2Proof.Proofs

open Sys2Proof Sys2Proof.Machine Sys2Proof.Claims

/-- Settles O49: the partition is the full chunks and the tail, to which a policy adds at most one empty chunk. -/
theorem chunkListsOfThePolicies : Obligations.ChunkListsOfThePolicies := by
  refine fun m => ⟨flatten_baseChunks m, fun _ => length_of_mem_baseChunks, fun _ => length_of_mem_dropLast_baseChunks,
    length_baseChunks m, length_chunks_design m, ?reference, length_baseChunks m, chunks_reference m, fun h => ⟨?design, ?tail⟩⟩
  case reference => rw [chunks_reference, List.length_map, List.length_range]
  case design => exact chunks_of_not_endsInPad (pol := .design) fun hnil => h (by rw [hnil])
  case tail => exact chunks_of_not_endsInPad (pol := .reference) h

/-- Settles O50: the setup latches the key, the loop folds the base partition, and FINAL pads where the policy's list does. -/
theorem protocolComputesPoly1305 : Obligations.ProtocolComputesPoly1305 := by
  intro s pol m k hk
  obtain ⟨t, hrun, hengine, hinputs⟩ := run_withAccesses (served_protocol pol m k) s
  have hloop : Folded (baseChunks m) (s.engine.keyed pol k) _ :=
    Engine.accesses_absChunks (fun _ hc => (length_of_mem_baseChunks hc).2) (.inl rfl)
  rw [Engine.accesses_protocol, Engine.accesses_setup_of_length_eq hk,
    Engine.final_of_inMessage (hloop.inMessage rfl)] at hengine
  refine ⟨t, hrun, hinputs, ?_⟩
  rw [hengine]
  refine ⟨hloop.policy, rfl, rfl, ?tag, ?r, ?s, ?count⟩
  case tag =>
    rw [groupBytes_splitWords, tagSum_toNat, hloop.pad_acc rfl, hloop.s, poly1305_of_length_eq hk, ← toNat_ofNat_le_drop hk]
    rfl
  case r =>
    simp only [hloop.key, ← joinWords_keyWords_low hk]
    exact wordSum_clamp ..
  case s =>
    simp only [hloop.key]
    rw [← toNat_ofNat_le_drop hk, ← joinWords_keyWords_high hk, joinWords_toNat]
    rfl
  case count =>
    rw [hloop.pad_blkCnt rfl]
    exact (congrArg BitVec.toNat (BitVec.zero_add _)).trans (BitVec.toNat_ofNat ..)

/-- Settles O51: INIT aborts and leaves the key as loaded, and from START neither ABSORB nor FINAL does more than raise SEQUENCE. -/
theorem wrongKeyLengthGivesNoTag : Obligations.WrongKeyLengthGivesNoTag := by
  intro s pol m k hk hlt
  have hsetup := Engine.accesses_setup_of_length_ne hk hlt pol s.engine
  refine ⟨if_pos hk, ?status, ?onward⟩
  case status =>
    obtain ⟨t, hrun, hresponse⟩ :=
      run_withAccesses_rdStat (fun a ha => served_setup pol k a (List.mem_append_left rdStat ha)) s
    refine ⟨t, hrun, ?_⟩
    rw [hresponse, hsetup, statusWord_abort_raise]
  case onward =>
    obtain ⟨t, hrun, hengine, -⟩ := run_withAccesses (served_protocol pol m k) s
    rw [Engine.accesses_protocol, hsetup] at hengine
    obtain ⟨blk, blkLen, err, hloop⟩ :=
      Engine.accesses_absChunks_of_idle (baseChunks m) (e := Engine.raise .invalidKeyLength (Engine.abort _)) (.inl rfl)
    rw [hloop, Engine.final_of_idle (.inl rfl)] at hengine
    refine ⟨t, hrun, ?_⟩
    rw [hengine]
    refine ⟨rfl, rfl, rfl, rfl, groupBytes_keyWords ?_⟩
    rw [List.length_append, List.length_take, List.length_replicate]
    omega

end Sys2Proof.Proofs
end

section
/-! SUPPORT. The code each command leaves in ERR, what a command that fails leaves unchanged, and the step of a host that keeps
to R54 (60_exceptions.md R221, R223, R236; 20_memory.md R54). -/

namespace Sys2Proof.Machine

open Sys2Proof

/-! ### ERR after a command -/

theorem Engine.init_err (e : Engine) : e.init.err = if e.keyLen.toNat ≠ 32 then .invalidKeyLength else .ok := by
  obtain ⟨hk, h⟩ | ⟨hk, h⟩ := e.init_cases <;> simp [h, hk]

/-- STATE is checked before the length (R141). -/
theorem Engine.absorb_err (e : Engine) :
    e.absorb.err =
      if e.state = .start ∨ e.state = .done then .sequence
      else if 16 < e.blkLen.toNat then .invalidBlockLength else .ok := by
  obtain ⟨hidle, h⟩ | ⟨hm, hl, h⟩ | ⟨hm, hl, h⟩ := e.absorb_cases
  · simp [h, hidle]
  · obtain hs | hs := hm <;> simp [h, hs, hl]
  · obtain hs | hs := hm <;> simp [h, hs, hl.not_gt]

theorem Engine.final_err (e : Engine) : e.final.err = if e.state = .start ∨ e.state = .done then .sequence else .ok := by
  obtain ⟨hidle, h⟩ | ⟨hm, -, h⟩ | ⟨hm, -, h⟩ := e.final_cases
  · simp [h, hidle]
  · obtain hs | hs := hm <;> simp [h, hs]
  · obtain hs | hs := hm <;> simp [h, hs]

/-! ### Instructions that keep ERR, and commands that fail -/

/-- Of the registers, only CMD changes ERR when written (R221). -/
theorem writeReg_err_of_ne_cmd {g : Reg} (hg : g ≠ .cmd) (v : Word) (e : Engine) : (writeReg g v e).err = e.err := by
  cases g with
  | cmd => exact absurd rfl hg
  | ctrl | keyLen | blkLen | key _ | blk _ => rfl
  | id | status | blkCnt | tag _ | acc _ | reserved => rfl

/-- A command other than INIT checks before it acts, so that its failure is its report (R221). -/
theorem Engine.command_eq_raise_of_err_ne_ok {c : Command} (hc : c ≠ .init) {e : Engine} (h : (e.command c).err ≠ .ok) :
    e.command c = e.raise (e.command c).err := by
  cases c with
  | clamp => exact absurd rfl h
  | init => exact absurd rfl hc
  | absorb =>
    obtain ⟨-, hraise⟩ | ⟨-, -, hraise⟩ | ⟨-, -, hok⟩ := e.absorb_cases
    · rw [Engine.command, hraise, raise_err]
    · rw [Engine.command, hraise, raise_err]
    · exact absurd (congrArg Engine.err hok) h
  | final =>
    obtain ⟨-, hraise⟩ | ⟨-, -, hok⟩ | ⟨-, -, hok⟩ := e.final_cases
    · rw [Engine.command, hraise, raise_err]
    · exact absurd (congrArg Engine.err hok) h
    · exact absurd (congrArg Engine.err hok) h
  | clear => exact absurd rfl h

/-- INIT aborts before its check, so that its failure is the abort and the report (R125). -/
theorem Engine.init_eq_of_err_ne_ok {e : Engine} (h : e.init.err ≠ .ok) : e.init = e.abort.raise .invalidKeyLength := by
  obtain ⟨-, hok⟩ | ⟨-, hfail⟩ := e.init_cases
  · exact absurd (congrArg Engine.err hok) h
  · exact hfail

/-! ### The step at an admitted input -/

/-- The step of a host that keeps to R54 goes on, and takes the oldest input if there is one. -/
theorem step_of_hostKeepsR54 {s : State} (h : s.hostKeepsR54) : ∃ t, step s = .next t ∧ t.inputs = s.inputs.tail := by
  match hs : s.inputs with
  | [] => exact ⟨s, by rw [step, hs], hs⟩
  | .reset :: rest => exact ⟨_, by rw [step, hs], rfl⟩
  | .access a :: rest =>
    rw [step_of_access hs]
    cases hd : decodeAccess a with
    | outside => exact ⟨_, serve_outside hd _, rfl⟩
    | unsupported =>
      have hadmitted : admitted (.access a) = true := h _ (hs ▸ List.mem_cons_self)
      exact absurd hd (of_decide_eq_true hadmitted)
    | instr i =>
      obtain ⟨r, hr⟩ := exec_eq i { s with inputs := rest, response := none }
      exact ⟨_, (serve_instr hd _).trans hr, rfl⟩

theorem State.hostKeepsR54_of_tail {s t : State} (hs : s.hostKeepsR54) (ht : t.inputs = s.inputs.tail) : t.hostKeepsR54 :=
  fun x hx => hs x (List.mem_of_mem_tail (ht ▸ hx))

end Sys2Proof.Machine
end

section
/-! PROOFS. The statements of 60_exceptions.md: that instructions and runs go on, and what errors report and leave unchanged. -/

namespace Sys2Proof.Proofs

open Sys2Proof Sys2Proof.Machine Sys2Proof.Claims

/-- Settles O12: every instruction is an effect on the engine, with the inputs as they were. -/
theorem everyInstructionCompletes : Obligations.EveryInstructionCompletes := by
  intro i s
  obtain ⟨r, hr⟩ := exec_eq i s
  exact ⟨_, hr, rfl⟩

/-- Settles O13, by induction on the number of steps: each goes on and leaves a part of the inputs. -/
theorem runsOfAdmittedInputsNeverStop : Obligations.RunsOfAdmittedInputsNeverStop := by
  intro n
  induction n with
  | zero => exact fun s hs => ⟨s, run_zero s, hs⟩
  | succ n ih =>
    intro s hs
    obtain ⟨u, hstep, hu⟩ := step_of_hostKeepsR54 hs
    obtain ⟨t, hrun, ht⟩ := ih u (State.hostKeepsR54_of_tail hs hu)
    exact ⟨t, (run_succ hstep).trans hrun, ht⟩

/-- Settles O38: the word is reserved or a command's, and each command leaves its own code. -/
theorem errorCodeOfEveryCommandWord : Obligations.ErrorCodeOfEveryCommandWord := by
  intro s w
  refine ⟨_, exec_wr_cmd w s, ?_⟩
  cases hd : decodeCommand w with
  | none =>
    have hreserved := (decodeCommand_eq_none_iff w).1 hd
    rw [if_pos hreserved, Engine.commandWord_of_reserved hreserved, Engine.illegal_err]
  | some c =>
    obtain rfl := (decodeCommand_eq_some_iff w c).1 hd
    simp only [Engine.commandWord, hd]
    cases c with
    | clamp => simp [Engine.command, Command.word]
    | init => simp [Engine.command, Command.word, Engine.init_err]
    | absorb => simp [Engine.command, Command.word, Engine.absorb_err]
    | final => simp [Engine.command, Command.word, Engine.final_err]
    | clear => simp [Engine.command, Command.word]

/-- Settles O39: what is not written to CMD keeps ERR, and a failing command is its report, for INIT after the abort. -/
theorem failingCommandsChangeOnlyErr : Obligations.FailingCommandsChangeOnlyErr := by
  refine ⟨?keepsErr, ?fails⟩
  case keepsErr =>
    rintro s t o v (h | ⟨ho, h⟩)
    · rw [exec_engine h, Engine.effect]
    · rw [exec_engine h, Engine.effect, writeReg_err_of_ne_cmd (mt (regAt_eq_cmd o) ho)]
  case fails =>
    intro c s t h herr
    rw [exec_command] at h
    cases h
    refine ⟨fun hc => ?_, ?_⟩
    · exact congrArg (fun e => { s with engine := e }) (Engine.command_eq_raise_of_err_ne_ok hc herr)
    · rintro rfl
      exact congrArg (fun e => { s with engine := e }) (Engine.init_eq_of_err_ne_ok herr)

end Sys2Proof.Proofs
end

section
/-! SUPPORT. The steps that serve no access, and two engines side by side: what an instruction makes of a difference in
KEY0..KEY7 or in POLICY alone (70_reset_and_hazards.md R250, R251, R262, R264). -/

namespace Sys2Proof.Machine

open Sys2Proof

/-! ### Waiting and the hardware reset -/

theorem step_of_idle {s : State} (h : s.inputs = []) : step s = .next s := by
  rw [step, h]

theorem step_of_reset {s : State} {rest : List Input} (h : s.inputs = .reset :: rest) :
    step s = .next { engine := Engine.reset, inputs := rest, response := none } := by
  rw [step, h]

/-! ### One instruction from two states -/

/-- A relation between engines holds after a well-formed instruction if it holds after the command that the instruction is, after
every write that runs no command, and, for a read, before it. -/
theorem exec_related {R : Engine → Engine → Prop} {i : Instr} {s s' t : State} (hwf : i.wf = true) (hex : exec i s = .next t)
    (hread : R s.engine s'.engine)
    (hwrite : ∀ g v, (g = .cmd → decodeCommand v = none) → R (writeReg g v s.engine) (writeReg g v s'.engine))
    (hcommand : ∀ c : Command, i = c.instr → R (s.engine.command c) (s'.engine.command c)) :
    ∃ t', exec i s' = .next t' ∧ R t.engine t'.engine := by
  obtain ⟨r, hr⟩ := exec_eq i s'
  refine ⟨_, hr, ?_⟩
  rw [exec_engine hex]
  cases i with
  | clamp => exact hcommand .clamp rfl
  | init => exact hcommand .init rfl
  | absorb => exact hcommand .absorb rfl
  | final => exact hcommand .final rfl
  | clear => exact hcommand .clear rfl
  | wr o v => exact hwrite (regAt o) v (Instr.wf_wr hwf)
  | rd o => exact hread

/-- A word that is no command is reported, whatever the engine holds (R181). -/
theorem writeReg_cmd_of_none {v : Word} (hv : decodeCommand v = none) (e : Engine) :
    writeReg .cmd v e = e.raise .illegalCommand := by
  rw [writeReg, Engine.commandWord, hv, Engine.illegal]

/-! ### Engines that differ in KEY0..KEY7 -/

/-- `e'` is `e` but for KEY0..KEY7. -/
def Engine.SameButKey (e e' : Engine) : Prop := ∃ k, e' = { e with key := k }

/-- ABSORB neither reads nor writes KEY0..KEY7. -/
theorem Engine.absorb_with_key (e : Engine) (k : Vector Word 8) :
    ({ e with key := k } : Engine).absorb = { e.absorb with key := k } := by
  simp only [Engine.absorb]
  split
  · rfl
  · split <;> rfl

/-- FINAL neither reads nor writes KEY0..KEY7; its pad decision is on POLICY, STATE and LAST_LEN. -/
theorem Engine.final_with_key (e : Engine) (k : Vector Word 8) :
    ({ e with key := k } : Engine).final = { e.final with key := k } := by
  have hpad : padNeeded { e with key := k } = padNeeded e := rfl
  simp only [Engine.final, Engine.pad, hpad]
  split
  · rfl
  · split <;> rfl

/-- INIT is the one command that copies the key to other registers; CLAMP and CLEAR keep what they make of it in place (R262). -/
theorem Engine.sameButKey_command {c : Command} (hc : c ≠ .init) (e : Engine) (k : Vector Word 8) :
    (e.command c).SameButKey (({ e with key := k } : Engine).command c) := by
  cases c with
  | clamp => exact ⟨({ e with key := k } : Engine).clampKey.key, rfl⟩
  | init => exact absurd rfl hc
  | absorb => exact ⟨k, e.absorb_with_key k⟩
  | final => exact ⟨k, e.final_with_key k⟩
  | clear => exact ⟨Vector.replicate 8 0, rfl⟩

theorem sameButKey_writeReg {g : Reg} {v : Word} (hv : g = .cmd → decodeCommand v = none) (e : Engine) (k : Vector Word 8) :
    (writeReg g v e).SameButKey (writeReg g v { e with key := k }) := by
  cases g with
  | cmd =>
    rw [writeReg_cmd_of_none (hv rfl), writeReg_cmd_of_none (hv rfl)]
    exact ⟨k, rfl⟩
  | key i => exact ⟨k.set i.val v i.isLt, rfl⟩
  | ctrl | keyLen | blkLen | blk _ => exact ⟨k, rfl⟩
  | id | status | blkCnt | tag _ | acc _ | reserved => exact ⟨k, rfl⟩

/-! ### Engines that differ in POLICY -/

/-- `e'` is `e` but for POLICY. -/
def Engine.SameButPolicy (e e' : Engine) : Prop := ∃ p, e' = { e with policy := p }

/-- A write to CTRL may keep the POLICY held, so that both may keep their own (R103); no other write looks at it. -/
theorem sameButPolicy_writeReg {g : Reg} {v : Word} (hv : g = .cmd → decodeCommand v = none) (e : Engine) (p : Policy) :
    (writeReg g v e).SameButPolicy (writeReg g v { e with policy := p }) := by
  cases g with
  | cmd =>
    rw [writeReg_cmd_of_none (hv rfl), writeReg_cmd_of_none (hv rfl)]
    exact ⟨p, rfl⟩
  | ctrl => exact ⟨writeCtrl p v, rfl⟩
  | keyLen | blkLen | key _ | blk _ => exact ⟨p, rfl⟩
  | id | status | blkCnt | tag _ | acc _ | reserved => exact ⟨p, rfl⟩

end Sys2Proof.Machine
end

section
/-! PROOFS. The statements of 70_reset_and_hazards.md: reset and waiting, and when the key and the policy are sampled. -/

namespace Sys2Proof.Proofs

open Sys2Proof Sys2Proof.Machine Sys2Proof.Claims

/-- Settles O10: the step leaves the reset engine, whose 64 offsets read as R42 says. -/
theorem hardwareResetSetsEveryRegister : Obligations.HardwareResetSetsEveryRegister := by
  intro s rest hs
  refine ⟨_, step_of_reset hs, fun o => ?_, rfl, rfl, rfl, rfl, rfl, rfl, rfl, rfl⟩
  rw [exec_rd, readReg_reset]

/-- Settles O46: a command but INIT and a write that runs no command keep a difference in the key where it is. -/
theorem keyRegistersReachTheRestOnlyThroughInit : Obligations.KeyRegistersReachTheRestOnlyThroughInit := by
  intro i s t k hwf hinit hex
  have hcommand (c : Command) (hc : i = c.instr) :
      (s.engine.command c).SameButKey ((withKey s k).engine.command c) := by
    refine Engine.sameButKey_command ?_ s.engine k
    rintro rfl
    exact hinit hc
  obtain ⟨t', hex', k', hk'⟩ :=
    exec_related hwf hex ⟨k, rfl⟩ (fun _ _ hv => sameButKey_writeReg hv s.engine k) hcommand
  exact ⟨t', k', hex', hk'⟩

/-- Settles O47: a command but FINAL and a write that runs no command keep a difference in POLICY where it is. -/
theorem policyReachesTheRestOnlyThroughFinal : Obligations.PolicyReachesTheRestOnlyThroughFinal := by
  intro i s t p hwf hfinal hex
  have hcommand (c : Command) (hc : i = c.instr) :
      (s.engine.command c).SameButPolicy ((withPolicy s p).engine.command c) := by
    refine ⟨p, Engine.command_policy ?_ s.engine p⟩
    rintro rfl
    exact hfinal hc
  obtain ⟨t', hex', p', hp'⟩ :=
    exec_related hwf hex ⟨p, rfl⟩ (fun _ _ hv => sameButPolicy_writeReg hv s.engine p) hcommand
  exact ⟨t', p', hex', hp'⟩

/-- Settles O8, from the reset values and the step with no input pending. -/
theorem engineWaitsWithoutInput : Obligations.EngineWaitsWithoutInput := ⟨rfl, rfl, fun _ => step_of_idle⟩

end Sys2Proof.Proofs
end
